-- ==== Sys2Proof/Word.lean ====
section
/-! DEFINITION. The core's words and the integer readings of 00_scope.md rules R8 and R11. -/

namespace Sys2Proof

/-- A byte of memory or of output (00_scope.md rule R8). -/
abbrev Byte := BitVec 8

/-- A register value, the program counter or an address: XLEN = 32 bits (00_scope.md rule R8). -/
abbrev Word := BitVec 32

/-- A register index, 0 to 31 (10_state.md rule R20). -/
abbrev RegIdx := Fin 32

/-- `uint(v)`, the unsigned integer value of a word (00_scope.md rule R11). -/
abbrev uint (v : Word) : Nat := v.toNat

/-- `sint(v)`, the two's-complement signed value of a word (00_scope.md rule R11). -/
abbrev sint (v : Word) : Int := v.toInt

/-- `wrap32(i)`, the word whose unsigned value is `i mod 2^32` (00_scope.md rule R11). -/
def wrap32 (i : Int) : Word := BitVec.ofInt 32 i

end Sys2Proof
end

