-- ==== Sys2Proof/Machine/Alu.lean ====
section
/-! DEFINITION. The arithmetic of the arithmetic/logical unit as functions of its operands (40_alu.md rules R101 to
R103): computed on integers, then narrowed by `wrap32`. -/

namespace Sys2Proof.Machine

/-- `wrap32(uint(a) + uint(b))` (40_alu.md rules R104 and R130). -/
def addWords (a b : Word) : Word := wrap32 (uint a + uint b)

/-- `wrap32(uint(a) - uint(b))` (40_alu.md rule R106). -/
def subWords (a b : Word) : Word := wrap32 (uint a - uint b)

/-- `wrap32(sint(a) * sint(b))` (40_alu.md rule R105). -/
def mulLow (a b : Word) : Word := wrap32 (sint a * sint b)

/-- `wrap32(floor(sint(a) * sint(b) / 2^32))` (40_alu.md rule R108). -/
def mulHigh (a b : Word) : Word := wrap32 (sint a * sint b / 2 ^ 32)

/-- `wrap32(uint(acc) + sint(a) * sint(b))` (40_alu.md rule R117). -/
def mulAccumulate (acc a b : Word) : Word := wrap32 (uint acc + sint a * sint b)

/-- `shl(v, s)` (40_alu.md rule R102). -/
def shl (v : Word) (s : Nat) : Word := if 32 ≤ s then 0 else wrap32 (uint v * 2 ^ s)

/-- `shr(v, s)` (40_alu.md rule R102). -/
def shr (v : Word) (s : Nat) : Word := if 32 ≤ s then 0 else wrap32 (uint v / 2 ^ s)

/-- `sar(v, s)`; the integer division rounds down (40_alu.md rule R102). -/
def sar (v : Word) (s : Nat) : Word :=
  if 32 ≤ s then (if v.getLsbD 31 then 0xFFFFFFFF else 0) else wrap32 (sint v / 2 ^ s)

/-- `divs(a, b)`, the quotient rounded toward zero (40_alu.md rule R103). -/
def divs (a b : Int) : Word :=
  if b = 0 then 0xFFFFFFFF else if a = -2 ^ 31 ∧ b = -1 then 0x80000000 else wrap32 (a.tdiv b)

/-- `rems(a, b)`, the sign following the dividend (40_alu.md rule R103). -/
def rems (a b : Int) : Word :=
  if b = 0 then wrap32 a else if a = -2 ^ 31 ∧ b = -1 then 0 else wrap32 (a - b * a.tdiv b)

end Sys2Proof.Machine
end

