-- ==== Sys2Proof/Machine/Flags.lean ====
section
/-! DEFINITION. The core has no flags (10_state.md rule R28). A comparison delivers its result into a register or into
the branch decision; both comparisons are here. -/

namespace Sys2Proof.Machine

/-- 1 if `sint(a) < sint(b)`, else 0 (40_alu.md rules R109 and R132). -/
def setLessThan (a b : Word) : Word := if sint a < sint b then 1 else 0

/-- `a[15:0] == b[15:0]`, the branch comparison (41_control.md rule R153). -/
def equalLow16 (a b : Word) : Bool := a.extractLsb' 0 16 == b.extractLsb' 0 16

end Sys2Proof.Machine
end

