-- ==== Sys2Proof/Config.lean ====
section
/-! DEFINITION. The implementation parameters the spec leaves open (00_scope.md rule R9). A state carries them
(log entry 1), so a statement about every state is a statement about every choice of them. -/

namespace Sys2Proof

/-- The open parameters of 00_scope.md rule R9, fixed for a run. -/
structure Config where
  /-- `MEMORY_SPACE`: the number of bytes of memory (decision D4). -/
  memorySpace : Nat
  /-- `MAC_OPCODE`: the alternate register-register opcode (decision D5). -/
  macOpcode : BitVec 7
  /-- `ENTRY`: the program counter at reset (decision D3). -/
  entry : Word
  /-- `EXIT_BANNER`: the text of the `ExitBanner` output item (decision D23). -/
  exitBanner : List Byte
deriving DecidableEq, Repr

/-- The eight opcode values of 30_encoding.md rule R63 that are not the parameter. -/
def classOpcodes : List (BitVec 7) := [0x03, 0x13, 0x23, 0x33, 0x37, 0x63, 0x6F, 0x73]

/-- The constraint column of 00_scope.md rule R9. -/
abbrev Config.wf (c : Config) : Prop :=
  1 ≤ c.memorySpace ∧ c.memorySpace ≤ 2 ^ 32 ∧ c.macOpcode ∉ classOpcodes

/-- DESIGN CHOICE (log entry 2, unsafe): the parameters of `State.reset`, the instantiation that the test vectors of
95_test_vectors.md use. The spec gives none of these values. -/
def Config.reference : Config :=
  { memorySpace := 0x1000, macOpcode := 0x0B, entry := 0, exitBanner := [] }

end Sys2Proof
end

