-- ==== Sys2Proof/Syntax.lean ====
section
/-! DEFINITION. The instructions of spec/opcode_table.json, one constructor per row, and the decoder's records
(30_encoding.md rules R65 and R80). An immediate is held at its encoded width (rule R71). A word's bits that its
instruction does not examine (rule R82) are kept as the last argument of its constructor (log entry 6), so that an
accepted word and its instruction determine each other; no meaning reads them. -/

namespace Sys2Proof

/-- An accepted instruction. -/
inductive Instr where
  /-- ADD, 40_alu.md rule R104. -/
  | add (rd rs1 rs2 : RegIdx)
  /-- MUL, 40_alu.md rule R105. -/
  | mul (rd rs1 rs2 : RegIdx)
  /-- SUB, 40_alu.md rule R106. -/
  | sub (rd rs1 rs2 : RegIdx)
  /-- SLL, 40_alu.md rule R107. -/
  | sll (rd rs1 rs2 : RegIdx)
  /-- MULH, 40_alu.md rule R108. -/
  | mulh (rd rs1 rs2 : RegIdx)
  /-- SLT, 40_alu.md rule R109; `funct7` is not examined. -/
  | slt (rd rs1 rs2 : RegIdx) (funct7 : BitVec 7)
  /-- XOR, 40_alu.md rule R110. -/
  | xor (rd rs1 rs2 : RegIdx)
  /-- DIV, 40_alu.md rule R111. -/
  | div (rd rs1 rs2 : RegIdx)
  /-- SRL, 40_alu.md rule R112. -/
  | srl (rd rs1 rs2 : RegIdx)
  /-- SRA, 40_alu.md rule R113. -/
  | sra (rd rs1 rs2 : RegIdx)
  /-- OR, 40_alu.md rule R114. -/
  | or (rd rs1 rs2 : RegIdx)
  /-- REM, 40_alu.md rule R115. -/
  | rem (rd rs1 rs2 : RegIdx)
  /-- AND, 40_alu.md rule R116; `funct7` is not examined. -/
  | and (rd rs1 rs2 : RegIdx) (funct7 : BitVec 7)
  /-- MAC, 40_alu.md rule R117. -/
  | mac (rd rs1 rs2 : RegIdx)
  /-- ALT.MUL, 40_alu.md rule R118. -/
  | altMul (rd rs1 rs2 : RegIdx)
  /-- ALT.SUB, 40_alu.md rule R119. -/
  | altSub (rd rs1 rs2 : RegIdx)
  /-- ALT.SLL, 40_alu.md rule R120. -/
  | altSll (rd rs1 rs2 : RegIdx)
  /-- ALT.MULH, 40_alu.md rule R121. -/
  | altMulh (rd rs1 rs2 : RegIdx)
  /-- ALT.SLT, 40_alu.md rule R122; `funct7` is not examined. -/
  | altSlt (rd rs1 rs2 : RegIdx) (funct7 : BitVec 7)
  /-- ALT.XOR, 40_alu.md rule R123. -/
  | altXor (rd rs1 rs2 : RegIdx)
  /-- ALT.DIV, 40_alu.md rule R124. -/
  | altDiv (rd rs1 rs2 : RegIdx)
  /-- ALT.SRL, 40_alu.md rule R125. -/
  | altSrl (rd rs1 rs2 : RegIdx)
  /-- ALT.SRA, 40_alu.md rule R126. -/
  | altSra (rd rs1 rs2 : RegIdx)
  /-- ALT.OR, 40_alu.md rule R127. -/
  | altOr (rd rs1 rs2 : RegIdx)
  /-- ALT.REM, 40_alu.md rule R128. -/
  | altRem (rd rs1 rs2 : RegIdx)
  /-- ALT.AND, 40_alu.md rule R129; `funct7` is not examined. -/
  | altAnd (rd rs1 rs2 : RegIdx) (funct7 : BitVec 7)
  /-- ADDI, 40_alu.md rule R130. -/
  | addi (rd rs1 : RegIdx) (imm : BitVec 12)
  /-- SLLI, 40_alu.md rule R131. -/
  | slli (rd rs1 : RegIdx) (imm : BitVec 12)
  /-- SLTI, 40_alu.md rule R132. -/
  | slti (rd rs1 : RegIdx) (imm : BitVec 12)
  /-- XORI, 40_alu.md rule R133. -/
  | xori (rd rs1 : RegIdx) (imm : BitVec 12)
  /-- SRLI, 40_alu.md rule R134. -/
  | srli (rd rs1 : RegIdx) (imm : BitVec 12)
  /-- ORI, 40_alu.md rule R135. -/
  | ori (rd rs1 : RegIdx) (imm : BitVec 12)
  /-- ANDI, 40_alu.md rule R136. -/
  | andi (rd rs1 : RegIdx) (imm : BitVec 12)
  /-- LUI, 40_alu.md rule R137. -/
  | lui (rd : RegIdx) (imm : BitVec 20)
  /-- BEQ, 41_control.md rule R150; the offset's bit 0 is 0. -/
  | beq (rs1 rs2 : RegIdx) (offset : BitVec 13)
  /-- BNE, 41_control.md rule R151; the offset's bit 0 is 0. -/
  | bne (rs1 rs2 : RegIdx) (offset : BitVec 13)
  /-- JAL, 41_control.md rule R152; the offset's bit 0 is 0. -/
  | jal (rd : RegIdx) (offset : BitVec 21)
  /-- LB, 42_loadstore.md rule R173. -/
  | lb (rd rs1 : RegIdx) (imm : BitVec 12)
  /-- LH, 42_loadstore.md rule R174. -/
  | lh (rd rs1 : RegIdx) (imm : BitVec 12)
  /-- LW, 42_loadstore.md rule R175. -/
  | lw (rd rs1 : RegIdx) (imm : BitVec 12)
  /-- SB, 42_loadstore.md rule R176. -/
  | sb (rs1 rs2 : RegIdx) (imm : BitVec 12)
  /-- SH, 42_loadstore.md rule R177. -/
  | sh (rs1 rs2 : RegIdx) (imm : BitVec 12)
  /-- SW, 42_loadstore.md rule R178. -/
  | sw (rs1 rs2 : RegIdx) (imm : BitVec 12)
  /-- ECALL, 43_system.md rule R191; `ignored` is instr[31:7], none of it examined. -/
  | ecall (ignored : BitVec 25)
deriving DecidableEq, Repr

/-- The six tagged records of the bit-field decoder, and the record of an opcode outside the class table
(30_encoding.md rule R65). -/
inductive Decoded where
  | r (opcode : BitVec 7) (rd rs1 rs2 : RegIdx) (funct3 : BitVec 3) (funct7 : BitVec 7)
  | i (opcode : BitVec 7) (rd rs1 : RegIdx) (funct3 : BitVec 3) (imm : BitVec 12)
  | s (opcode : BitVec 7) (rs1 rs2 : RegIdx) (funct3 : BitVec 3) (imm : BitVec 12)
  | b (opcode : BitVec 7) (rs1 rs2 : RegIdx) (funct3 : BitVec 3) (imm : BitVec 13)
  | u (opcode : BitVec 7) (rd : RegIdx) (imm : BitVec 20)
  | j (opcode : BitVec 7) (rd : RegIdx) (imm : BitVec 21)
  | unknown (instr : Word)
deriving DecidableEq, Repr

/-- The thirteen rows of the register-register table (30_encoding.md rule R73); under the alternate opcode the first
row is MAC (rule R74). -/
inductive RegOp where
  | addOrMac | mul | sub | sll | mulh | slt | xor | div | srl | sra | or | rem | and
deriving DecidableEq, Repr

/-- Why bytes are not an instruction: the cases (a) to (f) of 30_encoding.md rule R80, and bytes that end before the
word does. -/
inductive DecodeError where
  /-- (a): the opcode is not in rule R63's table. -/
  | unknownOpcode
  /-- (b): a register-register word whose funct3 and funct7 rule R73 does not list. -/
  | registerFunct
  /-- (c): opcode 0x13 with funct3 = 3. -/
  | immediateFunct3
  /-- (d): opcode 0x03 with funct3 3 to 7. -/
  | loadFunct3
  /-- (e): opcode 0x23 with funct3 3 to 7. -/
  | storeFunct3
  /-- (f): opcode 0x63 with funct3 2 to 7. -/
  | branchFunct3
  /-- Fewer than four bytes were given; the reference fetch never does so. -/
  | truncated
deriving DecidableEq, Repr

end Sys2Proof
end

