-- ==== Sys2Proof/WellFormed.lean ====
section
/-! DEFINITION. Which instructions have an encoding: a branch or jump offset has bit 0 zero (30_encoding.md rules R68
and R70); every other operand is bounded by its type. -/

namespace Sys2Proof

/-- Every branch and jump offset is even. -/
def Instr.wf : Instr → Bool
  | .add _ _ _ => true
  | .mul _ _ _ => true
  | .sub _ _ _ => true
  | .sll _ _ _ => true
  | .mulh _ _ _ => true
  | .slt _ _ _ _ => true
  | .xor _ _ _ => true
  | .div _ _ _ => true
  | .srl _ _ _ => true
  | .sra _ _ _ => true
  | .or _ _ _ => true
  | .rem _ _ _ => true
  | .and _ _ _ _ => true
  | .mac _ _ _ => true
  | .altMul _ _ _ => true
  | .altSub _ _ _ => true
  | .altSll _ _ _ => true
  | .altMulh _ _ _ => true
  | .altSlt _ _ _ _ => true
  | .altXor _ _ _ => true
  | .altDiv _ _ _ => true
  | .altSrl _ _ _ => true
  | .altSra _ _ _ => true
  | .altOr _ _ _ => true
  | .altRem _ _ _ => true
  | .altAnd _ _ _ _ => true
  | .addi _ _ _ => true
  | .slli _ _ _ => true
  | .slti _ _ _ => true
  | .xori _ _ _ => true
  | .srli _ _ _ => true
  | .ori _ _ _ => true
  | .andi _ _ _ => true
  | .lui _ _ => true
  | .beq _ _ offset => !offset.getLsbD 0
  | .bne _ _ offset => !offset.getLsbD 0
  | .jal _ offset => !offset.getLsbD 0
  | .lb _ _ _ => true
  | .lh _ _ _ => true
  | .lw _ _ _ => true
  | .sb _ _ _ => true
  | .sh _ _ _ => true
  | .sw _ _ _ => true
  | .ecall _ => true

end Sys2Proof
end

