-- ==== Sys2Proof/Decode.lean ====
section
/-! DEFINITION. The bit-field decoder, the selection of an operation, and the encoder (30_encoding.md). Bit positions,
opcode values and the funct3 values outside the register-register table are the spec's (rules R62 to R64, R75 to
R78). `mac` is the open parameter `MAC_OPCODE`. -/

namespace Sys2Proof

/-! ## Fields and immediates -/

/-- The register a five-bit field names. -/
def regOf (b : BitVec 5) : RegIdx := ⟨b.toNat, b.isLt⟩

/-- The five-bit field that names a register. -/
def regBits (r : RegIdx) : BitVec 5 := BitVec.ofNat 5 r.val

/-- instr[6:0] (30_encoding.md rule R62). -/
def opcodeField (w : Word) : BitVec 7 := w.extractLsb' 0 7
/-- instr[11:7] (30_encoding.md rule R62). -/
def rdField (w : Word) : RegIdx := regOf (w.extractLsb' 7 5)
/-- instr[14:12] (30_encoding.md rule R62). -/
def funct3Field (w : Word) : BitVec 3 := w.extractLsb' 12 3
/-- instr[19:15] (30_encoding.md rule R62). -/
def rs1Field (w : Word) : RegIdx := regOf (w.extractLsb' 15 5)
/-- instr[24:20] (30_encoding.md rule R62). -/
def rs2Field (w : Word) : RegIdx := regOf (w.extractLsb' 20 5)
/-- instr[31:25] (30_encoding.md rule R62). -/
def funct7Field (w : Word) : BitVec 7 := w.extractLsb' 25 7

/-- instr[31:20], the unextended I immediate (30_encoding.md rules R64 and R66). -/
def immIField (w : Word) : BitVec 12 := w.extractLsb' 20 12
/-- instr[31:25] ++ instr[11:7], the unextended S immediate (30_encoding.md rule R67). -/
def immSField (w : Word) : BitVec 12 := (w.extractLsb' 25 7 ++ w.extractLsb' 7 5).cast rfl
/-- instr[31] ++ instr[7] ++ instr[30:25] ++ instr[11:8] ++ 0, the unextended B immediate (30_encoding.md rule R68). -/
def immBField (w : Word) : BitVec 13 :=
  (w.extractLsb' 31 1 ++ w.extractLsb' 7 1 ++ w.extractLsb' 25 6 ++ w.extractLsb' 8 4 ++ 0#1).cast rfl
/-- instr[31:12], the U immediate (30_encoding.md rule R69). -/
def immUField (w : Word) : BitVec 20 := w.extractLsb' 12 20
/-- instr[31] ++ instr[19:12] ++ instr[20] ++ instr[30:21] ++ 0, the unextended J immediate (30_encoding.md rule R70). -/
def immJField (w : Word) : BitVec 21 :=
  (w.extractLsb' 31 1 ++ w.extractLsb' 12 8 ++ w.extractLsb' 20 1 ++ w.extractLsb' 21 10 ++ 0#1).cast rfl

/-! ## The bit-field decoder -/

/-- The record of a word. The opcode alone chooses its class (30_encoding.md rules R61, R63 and R65). -/
def decodeFields (mac : BitVec 7) (w : Word) : Decoded :=
  let op := opcodeField w
  if op = 0x33 ∨ op = mac then .r op (rdField w) (rs1Field w) (rs2Field w) (funct3Field w) (funct7Field w)
  else if op = 0x13 ∨ op = 0x03 ∨ op = 0x73 then .i op (rdField w) (rs1Field w) (funct3Field w) (immIField w)
  else if op = 0x23 then .s op (rs1Field w) (rs2Field w) (funct3Field w) (immSField w)
  else if op = 0x63 then .b op (rs1Field w) (rs2Field w) (funct3Field w) (immBField w)
  else if op = 0x37 then .u op (rdField w) (immUField w)
  else if op = 0x6F then .j op (rdField w) (immJField w)
  else .unknown w

/-! ## Selection of the operation -/

/-- The register-register table (30_encoding.md rule R73): by funct3, then by funct7 where operations share a funct3. -/
def selectRegOp (f3 : BitVec 3) (f7 : BitVec 7) : Option RegOp :=
  if f3 = 0 then
    if f7 = 0x00 then some .addOrMac else if f7 = 0x01 then some .mul else if f7 = 0x20 then some .sub else none
  else if f3 = 1 then
    if f7 = 0x00 then some .sll else if f7 = 0x01 then some .mulh else none
  else if f3 = 2 then some .slt
  else if f3 = 4 then
    if f7 = 0x00 then some .xor else if f7 = 0x01 then some .div else none
  else if f3 = 5 then
    if f7 = 0x00 then some .srl else if f7 = 0x20 then some .sra else none
  else if f3 = 6 then
    if f7 = 0x00 then some .or else if f7 = 0x01 then some .rem else none
  else if f3 = 7 then some .and
  else none

/-- The instruction of a row under the standard opcode 0x33 (30_encoding.md rule R73). -/
def standardInstr (op : RegOp) (rd rs1 rs2 : RegIdx) (f7 : BitVec 7) : Instr :=
  match op with
  | .addOrMac => .add rd rs1 rs2
  | .mul => .mul rd rs1 rs2
  | .sub => .sub rd rs1 rs2
  | .sll => .sll rd rs1 rs2
  | .mulh => .mulh rd rs1 rs2
  | .slt => .slt rd rs1 rs2 f7
  | .xor => .xor rd rs1 rs2
  | .div => .div rd rs1 rs2
  | .srl => .srl rd rs1 rs2
  | .sra => .sra rd rs1 rs2
  | .or => .or rd rs1 rs2
  | .rem => .rem rd rs1 rs2
  | .and => .and rd rs1 rs2 f7

/-- The instruction of a row under the alternate opcode (30_encoding.md rule R74). -/
def alternateInstr (op : RegOp) (rd rs1 rs2 : RegIdx) (f7 : BitVec 7) : Instr :=
  match op with
  | .addOrMac => .mac rd rs1 rs2
  | .mul => .altMul rd rs1 rs2
  | .sub => .altSub rd rs1 rs2
  | .sll => .altSll rd rs1 rs2
  | .mulh => .altMulh rd rs1 rs2
  | .slt => .altSlt rd rs1 rs2 f7
  | .xor => .altXor rd rs1 rs2
  | .div => .altDiv rd rs1 rs2
  | .srl => .altSrl rd rs1 rs2
  | .sra => .altSra rd rs1 rs2
  | .or => .altOr rd rs1 rs2
  | .rem => .altRem rd rs1 rs2
  | .and => .altAnd rd rs1 rs2 f7

/-- Register-register words (30_encoding.md rules R73, R74 and R80 (b)). -/
def selectR (opcode : BitVec 7) (rd rs1 rs2 : RegIdx) (f3 : BitVec 3) (f7 : BitVec 7) : Except DecodeError Instr :=
  match selectRegOp f3 f7 with
  | some op => .ok (if opcode = 0x33 then standardInstr op rd rs1 rs2 f7 else alternateInstr op rd rs1 rs2 f7)
  | none => .error .registerFunct

/-- Register-immediate words, by funct3 alone (30_encoding.md rules R75 and R80 (c)). -/
def selectImm (rd rs1 : RegIdx) (f3 : BitVec 3) (imm : BitVec 12) : Except DecodeError Instr :=
  if f3 = 0 then .ok (.addi rd rs1 imm)
  else if f3 = 1 then .ok (.slli rd rs1 imm)
  else if f3 = 2 then .ok (.slti rd rs1 imm)
  else if f3 = 4 then .ok (.xori rd rs1 imm)
  else if f3 = 5 then .ok (.srli rd rs1 imm)
  else if f3 = 6 then .ok (.ori rd rs1 imm)
  else if f3 = 7 then .ok (.andi rd rs1 imm)
  else .error .immediateFunct3

/-- Loads (30_encoding.md rules R76 and R80 (d)). -/
def selectLoad (rd rs1 : RegIdx) (f3 : BitVec 3) (imm : BitVec 12) : Except DecodeError Instr :=
  if f3 = 0 then .ok (.lb rd rs1 imm)
  else if f3 = 1 then .ok (.lh rd rs1 imm)
  else if f3 = 2 then .ok (.lw rd rs1 imm)
  else .error .loadFunct3

/-- Stores (30_encoding.md rules R77 and R80 (e)). -/
def selectStore (rs1 rs2 : RegIdx) (f3 : BitVec 3) (imm : BitVec 12) : Except DecodeError Instr :=
  if f3 = 0 then .ok (.sb rs1 rs2 imm)
  else if f3 = 1 then .ok (.sh rs1 rs2 imm)
  else if f3 = 2 then .ok (.sw rs1 rs2 imm)
  else .error .storeFunct3

/-- Branches (30_encoding.md rules R78 and R80 (f)). -/
def selectBranch (rs1 rs2 : RegIdx) (f3 : BitVec 3) (imm : BitVec 13) : Except DecodeError Instr :=
  if f3 = 0 then .ok (.beq rs1 rs2 imm)
  else if f3 = 1 then .ok (.bne rs1 rs2 imm)
  else .error .branchFunct3

/-- instr[31:7] of a system-call word, put together from its record; no bit of it is examined (30_encoding.md rule
R79). -/
def ecallBits (rd rs1 : RegIdx) (f3 : BitVec 3) (imm : BitVec 12) : BitVec 25 :=
  (imm ++ regBits rs1 ++ f3 ++ regBits rd).cast rfl

/-- The operation of a record, or the case of 30_encoding.md rule R80 that makes it invalid (rules R72 to R80, R83). -/
def select : Decoded → Except DecodeError Instr
  | .r op rd rs1 rs2 f3 f7 => selectR op rd rs1 rs2 f3 f7
  | .i op rd rs1 f3 imm =>
    if op = 0x13 then selectImm rd rs1 f3 imm
    else if op = 0x03 then selectLoad rd rs1 f3 imm
    else .ok (.ecall (ecallBits rd rs1 f3 imm))
  | .s _ rs1 rs2 f3 imm => selectStore rs1 rs2 f3 imm
  | .b _ rs1 rs2 f3 imm => selectBranch rs1 rs2 f3 imm
  | .u _ rd imm => .ok (.lui rd imm)
  | .j _ rd imm => .ok (.jal rd imm)
  | .unknown _ => .error .unknownOpcode

/-- The instruction of a word, total on all 2^32 words (30_encoding.md rules R61, R80 and R83). -/
def decodeWord (mac : BitVec 7) (w : Word) : Except DecodeError Instr := select (decodeFields mac w)

/-- The word whose bytes, lowest address first, are these four (20_memory.md rule R43). -/
def wordOfBytes (b0 b1 b2 b3 : Byte) : Word := (b3 ++ b2 ++ b1 ++ b0).cast rfl

/-- The instruction at the head of a list of bytes, and the bytes after it (20_memory.md rule R43, 30_encoding.md rule
R60). -/
def decodeBytes (mac : BitVec 7) : List Byte → Except DecodeError (Instr × List Byte)
  | b0 :: b1 :: b2 :: b3 :: rest =>
    match decodeWord mac (wordOfBytes b0 b1 b2 b3) with
    | .ok i => .ok (i, rest)
    | .error e => .error e
  | _ => .error .truncated

/-- The four bytes of a word, lowest address first (20_memory.md rule R43). -/
def bytesOfWord (w : Word) : List Byte :=
  [w.extractLsb' 0 8, w.extractLsb' 8 8, w.extractLsb' 16 8, w.extractLsb' 24 8]

/-- The host's question about one word of the opcode table: what this decoder reads from it, under the reference
parameters (log entry 2). -/
def decodeTableWord (nbits w : Nat) : Option Instr :=
  match decodeBytes Config.reference.macOpcode (bytesOfWord (BitVec.ofNat 32 (w % 2 ^ nbits))) with
  | .ok (i, _) => some i
  | .error _ => none

/-! ## The encoder -/

/-- The R layout of 30_encoding.md rule R64. -/
def wordR (f7 : BitVec 7) (rs2 rs1 : RegIdx) (f3 : BitVec 3) (rd : RegIdx) (op : BitVec 7) : Word :=
  (f7 ++ regBits rs2 ++ regBits rs1 ++ f3 ++ regBits rd ++ op).cast rfl

/-- The I layout of 30_encoding.md rule R64. -/
def wordI (imm : BitVec 12) (rs1 : RegIdx) (f3 : BitVec 3) (rd : RegIdx) (op : BitVec 7) : Word :=
  (imm ++ regBits rs1 ++ f3 ++ regBits rd ++ op).cast rfl

/-- The S layout of 30_encoding.md rule R64. -/
def wordS (imm : BitVec 12) (rs2 rs1 : RegIdx) (f3 : BitVec 3) (op : BitVec 7) : Word :=
  (imm.extractLsb' 5 7 ++ regBits rs2 ++ regBits rs1 ++ f3 ++ imm.extractLsb' 0 5 ++ op).cast rfl

/-- The B layout of 30_encoding.md rule R64. -/
def wordB (imm : BitVec 13) (rs2 rs1 : RegIdx) (f3 : BitVec 3) (op : BitVec 7) : Word :=
  (imm.extractLsb' 12 1 ++ imm.extractLsb' 5 6 ++ regBits rs2 ++ regBits rs1 ++ f3 ++ imm.extractLsb' 1 4
    ++ imm.extractLsb' 11 1 ++ op).cast rfl

/-- The U layout of 30_encoding.md rule R64. -/
def wordU (imm : BitVec 20) (rd : RegIdx) (op : BitVec 7) : Word := (imm ++ regBits rd ++ op).cast rfl

/-- The J layout of 30_encoding.md rule R64. -/
def wordJ (imm : BitVec 21) (rd : RegIdx) (op : BitVec 7) : Word :=
  (imm.extractLsb' 20 1 ++ imm.extractLsb' 1 10 ++ imm.extractLsb' 11 1 ++ imm.extractLsb' 12 8 ++ regBits rd
    ++ op).cast rfl

/-- The word of an instruction, from the layouts of 30_encoding.md rule R64 and the selecting values of rules R63 and
R73 to R79. -/
def encode (mac : BitVec 7) : Instr → Word
  | .add rd rs1 rs2 => wordR 0x00 rs2 rs1 0 rd 0x33
  | .mul rd rs1 rs2 => wordR 0x01 rs2 rs1 0 rd 0x33
  | .sub rd rs1 rs2 => wordR 0x20 rs2 rs1 0 rd 0x33
  | .sll rd rs1 rs2 => wordR 0x00 rs2 rs1 1 rd 0x33
  | .mulh rd rs1 rs2 => wordR 0x01 rs2 rs1 1 rd 0x33
  | .slt rd rs1 rs2 f7 => wordR f7 rs2 rs1 2 rd 0x33
  | .xor rd rs1 rs2 => wordR 0x00 rs2 rs1 4 rd 0x33
  | .div rd rs1 rs2 => wordR 0x01 rs2 rs1 4 rd 0x33
  | .srl rd rs1 rs2 => wordR 0x00 rs2 rs1 5 rd 0x33
  | .sra rd rs1 rs2 => wordR 0x20 rs2 rs1 5 rd 0x33
  | .or rd rs1 rs2 => wordR 0x00 rs2 rs1 6 rd 0x33
  | .rem rd rs1 rs2 => wordR 0x01 rs2 rs1 6 rd 0x33
  | .and rd rs1 rs2 f7 => wordR f7 rs2 rs1 7 rd 0x33
  | .mac rd rs1 rs2 => wordR 0x00 rs2 rs1 0 rd mac
  | .altMul rd rs1 rs2 => wordR 0x01 rs2 rs1 0 rd mac
  | .altSub rd rs1 rs2 => wordR 0x20 rs2 rs1 0 rd mac
  | .altSll rd rs1 rs2 => wordR 0x00 rs2 rs1 1 rd mac
  | .altMulh rd rs1 rs2 => wordR 0x01 rs2 rs1 1 rd mac
  | .altSlt rd rs1 rs2 f7 => wordR f7 rs2 rs1 2 rd mac
  | .altXor rd rs1 rs2 => wordR 0x00 rs2 rs1 4 rd mac
  | .altDiv rd rs1 rs2 => wordR 0x01 rs2 rs1 4 rd mac
  | .altSrl rd rs1 rs2 => wordR 0x00 rs2 rs1 5 rd mac
  | .altSra rd rs1 rs2 => wordR 0x20 rs2 rs1 5 rd mac
  | .altOr rd rs1 rs2 => wordR 0x00 rs2 rs1 6 rd mac
  | .altRem rd rs1 rs2 => wordR 0x01 rs2 rs1 6 rd mac
  | .altAnd rd rs1 rs2 f7 => wordR f7 rs2 rs1 7 rd mac
  | .addi rd rs1 imm => wordI imm rs1 0 rd 0x13
  | .slli rd rs1 imm => wordI imm rs1 1 rd 0x13
  | .slti rd rs1 imm => wordI imm rs1 2 rd 0x13
  | .xori rd rs1 imm => wordI imm rs1 4 rd 0x13
  | .srli rd rs1 imm => wordI imm rs1 5 rd 0x13
  | .ori rd rs1 imm => wordI imm rs1 6 rd 0x13
  | .andi rd rs1 imm => wordI imm rs1 7 rd 0x13
  | .lui rd imm => wordU imm rd 0x37
  | .beq rs1 rs2 offset => wordB offset rs2 rs1 0 0x63
  | .bne rs1 rs2 offset => wordB offset rs2 rs1 1 0x63
  | .jal rd offset => wordJ offset rd 0x6F
  | .lb rd rs1 imm => wordI imm rs1 0 rd 0x03
  | .lh rd rs1 imm => wordI imm rs1 1 rd 0x03
  | .lw rd rs1 imm => wordI imm rs1 2 rd 0x03
  | .sb rs1 rs2 imm => wordS imm rs2 rs1 0 0x23
  | .sh rs1 rs2 imm => wordS imm rs2 rs1 1 0x23
  | .sw rs1 rs2 imm => wordS imm rs2 rs1 2 0x23
  | .ecall ignored => (ignored ++ 0x73#7).cast rfl

end Sys2Proof
end

