-- ==== Sys2Proof/Machine/State.lean ====
section
/-! DEFINITION. The core's state (10_state.md), the halt reasons (60_exceptions.md rule R210), the model's own outcomes,
and the state after reset. -/

namespace Sys2Proof.Machine

/-- The width of a memory access (20_memory.md rule R45). -/
inductive AccessWidth where
  | byte | half | word
deriving DecidableEq, Repr

/-- The kind of a faulting access (60_exceptions.md rule R210). -/
inductive AccessKind where
  | load | store
deriving DecidableEq, Repr

/-- Why the core halted, with the value it records (60_exceptions.md rule R210). -/
inductive HaltReason where
  /-- ECALL with service code 10. -/
  | exit
  /-- A word of 30_encoding.md rule R80. -/
  | invalidInstruction (word : Word)
  /-- ECALL with a code other than 1, 4, 10 and 11. -/
  | illegalServiceCall (code : Word)
  /-- A load or store out of bounds. -/
  | memoryFault (address : Word) (width : AccessWidth) (access : AccessKind)
  /-- The reference fetch out of bounds. -/
  | fetchFault (address : Word)
deriving DecidableEq, Repr

/-- The run status (10_state.md rule R32). -/
inductive RunStatus where
  | running
  | halted (reason : HaltReason)
deriving DecidableEq, Repr

/-- An item of the output stream (10_state.md rule R33). -/
inductive OutItem where
  | byte (b : Byte)
  | exitBanner
deriving DecidableEq, Repr

/-- The memory `M` (10_state.md rule R31): the listed bytes, addresses strictly rising; every other address reads as
`Memory.unlisted`. -/
abbrev Memory := List Host.Cell

/-- The complete state of the core (10_state.md), and its parameters (00_scope.md rule R9). -/
structure State where
  /-- `x[0]` to `x[31]` (rules R20 and R21). -/
  regs : Vector Word 32
  /-- The program counter (rule R24). -/
  pc : Word
  /-- The memory (rule R31). -/
  mem : Memory
  /-- The output stream, oldest item first (rule R33). -/
  out : List OutItem
  /-- The run status (rule R32). -/
  status : RunStatus
  /-- The parameters, written by no step (log entry 1). -/
  cfg : Config
deriving DecidableEq, Repr

/-- How a step stops. -/
inductive Fault where
  /-- Raised by `step` in a state that has halted: no step exists there (60_exceptions.md rule R213, log entry 4). Safe:
  the hardware takes no step either. -/
  | halted (reason : HaltReason)
deriving DecidableEq, Repr

/-- Why a meaning is refused. -/
inductive Refusal where
  /-- Raised by an arm of `exec` whose instruction has no meaning yet; no arm does so. Safe: the model stops where the
  hardware goes on. -/
  | notModelled (mnemonic : String)
deriving DecidableEq, Repr

/-- What an instruction or a step answers. -/
abbrev Result := Host.Outcome State Fault Refusal

/-- The state after reset for given parameters and a loaded memory image (10_state.md rule R36, 70_reset_and_hazards.md
rules R240 and R242). -/
def State.resetWith (cfg : Config) (image : Memory) : State :=
  { regs := Vector.replicate 32 0, pc := cfg.entry, mem := image, out := [], status := .running, cfg := cfg }

/-- The state after reset for the reference parameters (log entry 2) and with nothing loaded (log entry 3). -/
def State.reset : State := State.resetWith Config.reference []

end Sys2Proof.Machine
end

