-- ==== Sys2Proof/Machine/Ops.lean ====
section
/-! DEFINITION. The named operations over registers, memory, output, status and the program counter, the reference
fetch, and the halt that every fatal condition takes. -/

namespace Sys2Proof.Machine

/-! ## Registers and the program counter -/

/-- `x[i]` (00_scope.md rule R13). Register 0 is read like any other (10_state.md rule R21). -/
def State.getReg (s : State) (r : RegIdx) : Word := s.regs[r]

/-- `x[i] <- v` (00_scope.md rule R13). Register 0 is written like any other (10_state.md rule R21). -/
def State.setReg (s : State) (r : RegIdx) (v : Word) : State := { s with regs := s.regs.set r v }

/-- `pc <- t` (00_scope.md rule R13). -/
def State.setPc (s : State) (t : Word) : State := { s with pc := t }

/-- The default advance `pc <- pc + 4`, modulo 2^32 (10_state.md rules R25 and R27). It is also how the trap handler
returns (43_system.md rule R198). -/
def State.advance (s : State) : State := s.setPc (s.pc + 4)

/-- `x[rd] <- v; pc <- pc + 4`, the end of every instruction that writes a register and does not jump (40_alu.md rule
R100, 42_loadstore.md rule R170). -/
def State.writeBack (s : State) (rd : RegIdx) (v : Word) : Result := .next (s.setReg rd v).advance

/-- The service code register (10_state.md rule R22, 43_system.md rule R192). -/
def a0 : RegIdx := 10

/-- The service argument register (10_state.md rule R22, 43_system.md rule R192). -/
def a1 : RegIdx := 11

/-! ## Memory cells -/

/-- DESIGN CHOICE (log entry 3, unsafe): what an address that memory does not list reads as. 10_state.md rule R36 leaves
a byte the loader does not set unspecified. -/
def Memory.unlisted : Byte := 0

/-- `M[a]`. -/
def Memory.read : Memory → Nat → Byte
  | [], _ => Memory.unlisted
  | (k, b) :: rest, a => if k = a then b else Memory.read rest a

/-- The memory without an entry for `a`. -/
def Memory.erase : Memory → Nat → Memory
  | [], _ => []
  | (k, b) :: rest, a => if k = a then Memory.erase rest a else (k, b) :: Memory.erase rest a

/-- The memory with an entry for `a` put before the first larger address. -/
def Memory.insert : Memory → Nat → Byte → Memory
  | [], a, v => [(a, v)]
  | (k, b) :: rest, a, v => if a < k then (a, v) :: (k, b) :: rest else (k, b) :: Memory.insert rest a v

/-- `M[a] <- v`, in canonical form: a byte that equals what an unlisted address reads as is not listed. -/
def Memory.write (m : Memory) (a : Nat) (v : Byte) : Memory :=
  if v = Memory.unlisted then m.erase a else (m.erase a).insert a v

/-- The canonical form: addresses strictly rising, no entry equal to what an unlisted address reads as. -/
def Memory.wf : Memory → Bool
  | [] => true
  | (k, b) :: rest => b != Memory.unlisted && rest.all (fun c => k < c.1) && Memory.wf rest

/-- Every listed address lies below `n`. -/
def Memory.within (m : Memory) (n : Nat) : Bool := m.all (fun c => c.1 < n)

/-! ## Multi-byte accesses, little-endian (20_memory.md rules R42 and R43) -/

/-- `M[a]`, `M[a+1]`, ..., `M[a+n-1]`, the address counted as an integer (00_scope.md rule R14). -/
def Memory.readBytes (m : Memory) (a : Nat) : Nat → List Byte
  | 0 => []
  | n + 1 => m.read a :: Memory.readBytes m (a + 1) n

/-- `M[a+k] <-` the `k`-th byte of the list. -/
def Memory.writeBytes (m : Memory) (a : Nat) : List Byte → Memory
  | [] => m
  | b :: rest => Memory.writeBytes (m.write a b) (a + 1) rest

/-- The unsigned value of bytes listed lowest address first. -/
def valueOfBytes : List Byte → Nat
  | [] => 0
  | b :: rest => b.toNat + 256 * valueOfBytes rest

/-- The low `n` bytes of a word, least significant first (42_loadstore.md rule R172). -/
def lowBytes : Nat → Word → List Byte
  | 0, _ => []
  | n + 1, v => v.setWidth 8 :: lowBytes n (v >>> 8)

/-- The number of bytes an access moves (20_memory.md rule R45). -/
def AccessWidth.bytes : AccessWidth → Nat
  | .byte => 1
  | .half => 2
  | .word => 4

/-- `inbounds(a, n)`: `uint(a) + n ≤ MEMORY_SPACE` on integers, without wrap-around (20_memory.md rule R46). -/
def State.inbounds (s : State) (a : Word) (w : AccessWidth) : Bool := uint a + w.bytes ≤ s.cfg.memorySpace

/-- `MemRead(a, n)`, zero-extended to a word (00_scope.md rule R14). -/
def State.memRead (s : State) (a : Word) (w : AccessWidth) : Word :=
  BitVec.ofNat 32 (valueOfBytes (s.mem.readBytes (uint a) w.bytes))

/-- `MemWrite(a, n, v)` of the low `n` bytes of `v` (00_scope.md rule R14). -/
def State.memWrite (s : State) (a : Word) (w : AccessWidth) (v : Word) : State :=
  { s with mem := s.mem.writeBytes (uint a) (lowBytes w.bytes v) }

/-! ## Output -/

/-- `Emit`, one item after another (43_system.md rule R190). -/
def State.emit (s : State) (items : List OutItem) : State := { s with out := s.out ++ items }

/-- The bytes an output item stands for, the banner's text being the parameter `EXIT_BANNER` (43_system.md rule
R190). -/
def OutItem.text (banner : List Byte) : OutItem → List Byte
  | .byte b => [b]
  | .exitBanner => banner

/-- The printed text of a state. -/
def State.printed (s : State) : List Byte := s.out.flatMap (OutItem.text s.cfg.exitBanner)

/-! ## Halting -/

/-- `raise` and `halt`: the status becomes `Halted(reason)` and nothing else changes, so `pc` still addresses the
halting instruction (00_scope.md rule R15, 60_exceptions.md rules R213 and R214). Every fatal condition and the exit
service take this one operation. -/
def State.haltWith (s : State) (reason : HaltReason) : State := { s with status := .halted reason }

/-- The code column of 60_exceptions.md rule R210. -/
def HaltReason.code : HaltReason → Nat
  | .exit => 0
  | .invalidInstruction _ => 1
  | .illegalServiceCall _ => 2
  | .memoryFault _ _ _ => 3
  | .fetchFault _ => 4

/-- The exit status column of 60_exceptions.md rule R210: only `Exit` is success. -/
def HaltReason.isSuccess : HaltReason → Bool
  | .exit => true
  | .invalidInstruction _ => false
  | .illegalServiceCall _ => false
  | .memoryFault _ _ _ => false
  | .fetchFault _ => false

/-! ## Loads, stores and fetch -/

/-- A load of width `w` at `a` into `rd`, the value read passed through `extend`; out of bounds it raises MemoryFault
and does nothing else (20_memory.md rules R46 and R47, 42_loadstore.md rule R170). -/
def State.load (s : State) (rd : RegIdx) (a : Word) (w : AccessWidth) (extend : Word → Word) : Result :=
  if s.inbounds a w then s.writeBack rd (extend (s.memRead a w)) else .next (s.haltWith (.memoryFault a w .load))

/-- A store of the low bytes of `v` at `a`; out of bounds it raises MemoryFault and writes no byte (20_memory.md rules
R46 and R47, 42_loadstore.md rule R170). -/
def State.store (s : State) (a : Word) (w : AccessWidth) (v : Word) : Result :=
  if s.inbounds a w then .next (s.memWrite a w v).advance else .next (s.haltWith (.memoryFault a w .store))

/-- The reference fetch (20_memory.md rule R49): the word at `pc` at any alignment, or FetchFault. -/
def State.fetch (s : State) : Except HaltReason Word :=
  if s.inbounds s.pc .word then .ok (s.memRead s.pc .word) else .error (.fetchFault s.pc)

end Sys2Proof.Machine
end

