-- ==== Sys2Proof/Machine/Operands.lean ====
section
/-! DEFINITION. Operand forms: extension, the five immediates at 32 bits, the effective address and the shift
amounts. -/

namespace Sys2Proof.Machine

/-- `sext_N(v)`: the low `N` bits of `v` as a two's-complement number (00_scope.md rule R12). -/
def sextLow (n : Nat) (v : Word) : Word := (v.setWidth n).signExtend 32

/-- `immI` (30_encoding.md rule R66). -/
def immI (imm : BitVec 12) : Word := imm.signExtend 32

/-- `immS` (30_encoding.md rule R67). -/
def immS (imm : BitVec 12) : Word := imm.signExtend 32

/-- `immB` (30_encoding.md rule R68). -/
def immB (offset : BitVec 13) : Word := offset.signExtend 32

/-- `immU`: the 20 bits above 12 zero bits (30_encoding.md rule R69). -/
def immU (imm : BitVec 20) : Word := (imm ++ 0#12).cast rfl

/-- `immJ` (30_encoding.md rule R70). -/
def immJ (offset : BitVec 21) : Word := offset.signExtend 32

/-- `EA = wrap32(sint(x[rs1]) + sint(imm))` (20_memory.md rule R48). -/
def effectiveAddress (s : State) (rs1 : RegIdx) (imm : Word) : Word := wrap32 (sint (s.getReg rs1) + sint imm)

/-- The amount of a register shift, the whole unsigned value of `x[rs2]` (40_alu.md rule R102). -/
def registerShiftAmount (s : State) (rs2 : RegIdx) : Nat := uint (s.getReg rs2)

/-- The amount of an immediate shift, `uint(immI)` (40_alu.md rule R102). -/
def immediateShiftAmount (imm : BitVec 12) : Nat := uint (immI imm)

end Sys2Proof.Machine
end

