-- ==== Sys2Proof/Machine/Alternate.lean ====
section
/-! DEFINITION. The register-register operations of the alternate opcode `MAC_OPCODE` (40_alu.md section 3). Each is written out
on its own, so that one can be mended without its standard namesake. -/

namespace Sys2Proof.Machine

/-- MAC: the accumulator `x[rd]` is read before it is written (40_alu.md rule R117). -/
def execMac (rd rs1 rs2 : RegIdx) (s : State) : Result :=
  s.writeBack rd (mulAccumulate (s.getReg rd) (s.getReg rs1) (s.getReg rs2))

/-- ALT.MUL: as MUL (40_alu.md rule R118). -/
def execAltMul (rd rs1 rs2 : RegIdx) (s : State) : Result :=
  s.writeBack rd (mulLow (s.getReg rs1) (s.getReg rs2))

/-- ALT.SUB: as SUB (40_alu.md rule R119). -/
def execAltSub (rd rs1 rs2 : RegIdx) (s : State) : Result :=
  s.writeBack rd (subWords (s.getReg rs1) (s.getReg rs2))

/-- ALT.SLL: as SLL (40_alu.md rule R120). -/
def execAltSll (rd rs1 rs2 : RegIdx) (s : State) : Result :=
  s.writeBack rd (shl (s.getReg rs1) (registerShiftAmount s rs2))

/-- ALT.MULH: as MULH (40_alu.md rule R121). -/
def execAltMulh (rd rs1 rs2 : RegIdx) (s : State) : Result :=
  s.writeBack rd (mulHigh (s.getReg rs1) (s.getReg rs2))

/-- ALT.SLT: as SLT (40_alu.md rule R122). -/
def execAltSlt (rd rs1 rs2 : RegIdx) (_funct7 : BitVec 7) (s : State) : Result :=
  s.writeBack rd (setLessThan (s.getReg rs1) (s.getReg rs2))

/-- ALT.XOR: as XOR (40_alu.md rule R123). -/
def execAltXor (rd rs1 rs2 : RegIdx) (s : State) : Result :=
  s.writeBack rd (s.getReg rs1 ^^^ s.getReg rs2)

/-- ALT.DIV: as DIV (40_alu.md rule R124). -/
def execAltDiv (rd rs1 rs2 : RegIdx) (s : State) : Result :=
  s.writeBack rd (divs (sint (s.getReg rs1)) (sint (s.getReg rs2)))

/-- ALT.SRL: as SRL (40_alu.md rule R125). -/
def execAltSrl (rd rs1 rs2 : RegIdx) (s : State) : Result :=
  s.writeBack rd (shr (s.getReg rs1) (registerShiftAmount s rs2))

/-- ALT.SRA: as SRA (40_alu.md rule R126). -/
def execAltSra (rd rs1 rs2 : RegIdx) (s : State) : Result :=
  s.writeBack rd (sar (s.getReg rs1) (registerShiftAmount s rs2))

/-- ALT.OR: as OR (40_alu.md rule R127). -/
def execAltOr (rd rs1 rs2 : RegIdx) (s : State) : Result :=
  s.writeBack rd (s.getReg rs1 ||| s.getReg rs2)

/-- ALT.REM: as REM (40_alu.md rule R128). -/
def execAltRem (rd rs1 rs2 : RegIdx) (s : State) : Result :=
  s.writeBack rd (rems (sint (s.getReg rs1)) (sint (s.getReg rs2)))

/-- ALT.AND: as AND (40_alu.md rule R129). -/
def execAltAnd (rd rs1 rs2 : RegIdx) (_funct7 : BitVec 7) (s : State) : Result :=
  s.writeBack rd (s.getReg rs1 &&& s.getReg rs2)

end Sys2Proof.Machine
end

