-- ==== Sys2Proof/Machine/Control.lean ====
section
/-! DEFINITION. The control-flow unit (41_control.md). Every target is `pc` plus an offset, modulo 2^32, at any
alignment (rule R154). -/

namespace Sys2Proof.Machine

/-- BEQ (41_control.md rule R150). -/
def execBeq (rs1 rs2 : RegIdx) (offset : BitVec 13) (s : State) : Result :=
  .next (if equalLow16 (s.getReg rs1) (s.getReg rs2) then s.setPc (s.pc + immB offset) else s.advance)

/-- BNE (41_control.md rule R151). -/
def execBne (rs1 rs2 : RegIdx) (offset : BitVec 13) (s : State) : Result :=
  .next (if equalLow16 (s.getReg rs1) (s.getReg rs2) then s.advance else s.setPc (s.pc + immB offset))

/-- JAL: the link is `pc + 4`, also into `x[0]` (41_control.md rule R152). -/
def execJal (rd : RegIdx) (offset : BitVec 21) (s : State) : Result :=
  .next ((s.setReg rd (s.pc + 4)).setPc (s.pc + immJ offset))

end Sys2Proof.Machine
end

