-- ==== Sys2Proof/Machine/LoadStore.lean ====
section
/-! DEFINITION. The memory access unit (42_loadstore.md). -/

namespace Sys2Proof.Machine

/-- LB (42_loadstore.md rule R173). -/
def execLb (rd rs1 : RegIdx) (imm : BitVec 12) (s : State) : Result :=
  s.load rd (effectiveAddress s rs1 (immI imm)) .byte (sextLow 8)

/-- LH (42_loadstore.md rule R174). -/
def execLh (rd rs1 : RegIdx) (imm : BitVec 12) (s : State) : Result :=
  s.load rd (effectiveAddress s rs1 (immI imm)) .half (sextLow 16)

/-- LW (42_loadstore.md rule R175). -/
def execLw (rd rs1 : RegIdx) (imm : BitVec 12) (s : State) : Result :=
  s.load rd (effectiveAddress s rs1 (immI imm)) .word id

/-- SB (42_loadstore.md rule R176). -/
def execSb (rs1 rs2 : RegIdx) (imm : BitVec 12) (s : State) : Result :=
  s.store (effectiveAddress s rs1 (immS imm)) .byte (s.getReg rs2)

/-- SH (42_loadstore.md rule R177). -/
def execSh (rs1 rs2 : RegIdx) (imm : BitVec 12) (s : State) : Result :=
  s.store (effectiveAddress s rs1 (immS imm)) .half (s.getReg rs2)

/-- SW (42_loadstore.md rule R178). -/
def execSw (rs1 rs2 : RegIdx) (imm : BitVec 12) (s : State) : Result :=
  s.store (effectiveAddress s rs1 (immS imm)) .word (s.getReg rs2)

end Sys2Proof.Machine
end

