-- ==== Sys2Proof/Machine/RegImm.lean ====
section
/-! DEFINITION. The register-immediate operations and LUI (40_alu.md sections 4 and 5). -/

namespace Sys2Proof.Machine

/-- ADDI (40_alu.md rule R130). -/
def execAddi (rd rs1 : RegIdx) (imm : BitVec 12) (s : State) : Result :=
  s.writeBack rd (addWords (s.getReg rs1) (immI imm))

/-- SLLI (40_alu.md rule R131). -/
def execSlli (rd rs1 : RegIdx) (imm : BitVec 12) (s : State) : Result :=
  s.writeBack rd (shl (s.getReg rs1) (immediateShiftAmount imm))

/-- SLTI (40_alu.md rule R132). -/
def execSlti (rd rs1 : RegIdx) (imm : BitVec 12) (s : State) : Result :=
  s.writeBack rd (setLessThan (s.getReg rs1) (immI imm))

/-- XORI (40_alu.md rule R133). -/
def execXori (rd rs1 : RegIdx) (imm : BitVec 12) (s : State) : Result :=
  s.writeBack rd (s.getReg rs1 ^^^ immI imm)

/-- SRLI (40_alu.md rule R134). -/
def execSrli (rd rs1 : RegIdx) (imm : BitVec 12) (s : State) : Result :=
  s.writeBack rd (shr (s.getReg rs1) (immediateShiftAmount imm))

/-- ORI (40_alu.md rule R135). -/
def execOri (rd rs1 : RegIdx) (imm : BitVec 12) (s : State) : Result :=
  s.writeBack rd (s.getReg rs1 ||| immI imm)

/-- ANDI (40_alu.md rule R136). -/
def execAndi (rd rs1 : RegIdx) (imm : BitVec 12) (s : State) : Result :=
  s.writeBack rd (s.getReg rs1 &&& immI imm)

/-- LUI (40_alu.md rule R137). -/
def execLui (rd : RegIdx) (imm : BitVec 20) (s : State) : Result :=
  s.writeBack rd (immU imm)

end Sys2Proof.Machine
end

