-- ==== Sys2Proof/Machine/RegReg.lean ====
section
/-! DEFINITION. The register-register operations of the standard opcode 0x33 (40_alu.md section 2). -/

namespace Sys2Proof.Machine

/-- ADD (40_alu.md rule R104). -/
def execAdd (rd rs1 rs2 : RegIdx) (s : State) : Result :=
  s.writeBack rd (addWords (s.getReg rs1) (s.getReg rs2))

/-- MUL (40_alu.md rule R105). -/
def execMul (rd rs1 rs2 : RegIdx) (s : State) : Result :=
  s.writeBack rd (mulLow (s.getReg rs1) (s.getReg rs2))

/-- SUB (40_alu.md rule R106). -/
def execSub (rd rs1 rs2 : RegIdx) (s : State) : Result :=
  s.writeBack rd (subWords (s.getReg rs1) (s.getReg rs2))

/-- SLL (40_alu.md rule R107). -/
def execSll (rd rs1 rs2 : RegIdx) (s : State) : Result :=
  s.writeBack rd (shl (s.getReg rs1) (registerShiftAmount s rs2))

/-- MULH (40_alu.md rule R108). -/
def execMulh (rd rs1 rs2 : RegIdx) (s : State) : Result :=
  s.writeBack rd (mulHigh (s.getReg rs1) (s.getReg rs2))

/-- SLT (40_alu.md rule R109). -/
def execSlt (rd rs1 rs2 : RegIdx) (_funct7 : BitVec 7) (s : State) : Result :=
  s.writeBack rd (setLessThan (s.getReg rs1) (s.getReg rs2))

/-- XOR (40_alu.md rule R110). -/
def execXor (rd rs1 rs2 : RegIdx) (s : State) : Result :=
  s.writeBack rd (s.getReg rs1 ^^^ s.getReg rs2)

/-- DIV (40_alu.md rule R111). -/
def execDiv (rd rs1 rs2 : RegIdx) (s : State) : Result :=
  s.writeBack rd (divs (sint (s.getReg rs1)) (sint (s.getReg rs2)))

/-- SRL (40_alu.md rule R112). -/
def execSrl (rd rs1 rs2 : RegIdx) (s : State) : Result :=
  s.writeBack rd (shr (s.getReg rs1) (registerShiftAmount s rs2))

/-- SRA (40_alu.md rule R113). -/
def execSra (rd rs1 rs2 : RegIdx) (s : State) : Result :=
  s.writeBack rd (sar (s.getReg rs1) (registerShiftAmount s rs2))

/-- OR (40_alu.md rule R114). -/
def execOr (rd rs1 rs2 : RegIdx) (s : State) : Result :=
  s.writeBack rd (s.getReg rs1 ||| s.getReg rs2)

/-- REM (40_alu.md rule R115). -/
def execRem (rd rs1 rs2 : RegIdx) (s : State) : Result :=
  s.writeBack rd (rems (sint (s.getReg rs1)) (sint (s.getReg rs2)))

/-- AND (40_alu.md rule R116). -/
def execAnd (rd rs1 rs2 : RegIdx) (_funct7 : BitVec 7) (s : State) : Result :=
  s.writeBack rd (s.getReg rs1 &&& s.getReg rs2)

end Sys2Proof.Machine
end

