-- ==== Sys2Proof/Machine/System.lean ====
section
/-! DEFINITION. The system-call trap handler (43_system.md). It saves nothing and changes no mode; the services that
return do so by the default advance (43_system.md rule R198, 60_exceptions.md rules R217 and R218). -/

namespace Sys2Proof.Machine

/-- The ASCII character of a decimal digit (43_system.md rule R190). -/
def digitByte (d : Nat) : Byte := BitVec.ofNat 8 (0x30 + d)

/-- The decimal digits of a natural number, most significant first, with no leading zero; the first argument bounds
their number. -/
def decimalDigits : Nat → Nat → List Byte
  | 0, _ => []
  | fuel + 1, n => if n < 10 then [digitByte n] else decimalDigits fuel (n / 10) ++ [digitByte (n % 10)]

/-- The characters of `EmitDecimal(i)`: a `-` for a negative number, then the digits of its magnitude (43_system.md
rule R190). -/
def decimalText (i : Int) : List Byte :=
  (if i < 0 then [0x2D] else []) ++ decimalDigits (i.natAbs + 1) i.natAbs

/-- The bytes from `a` up to a zero byte or through `n` bytes, whichever comes first (43_system.md rule R194). -/
def Memory.stringFrom (m : Memory) (a : Nat) : Nat → List Byte
  | 0 => []
  | n + 1 => if m.read a = 0 then [] else m.read a :: Memory.stringFrom m (a + 1) n

/-- Code 1, print integer (43_system.md rule R193). -/
def servicePrintInteger (arg : Word) (s : State) : Result :=
  .next (s.emit ((decimalText (sint arg)).map .byte)).advance

/-- Code 4, print string: at most the `MEMORY_SPACE - uint(arg)` bytes that lie in memory, none when the address is past
its end (43_system.md rule R194). -/
def servicePrintString (arg : Word) (s : State) : Result :=
  .next (s.emit ((s.mem.stringFrom (uint arg) (s.cfg.memorySpace - uint arg)).map .byte)).advance

/-- Code 10, exit (43_system.md rule R195). -/
def serviceExit (s : State) : Result := .next ((s.emit [.exitBanner]).haltWith .exit)

/-- Code 11, print character (43_system.md rule R196). -/
def servicePrintCharacter (arg : Word) (s : State) : Result :=
  .next (s.emit [.byte (arg.extractLsb' 0 8)]).advance

/-- Any other code (43_system.md rule R197). -/
def serviceIllegal (code : Word) (s : State) : Result := .next (s.haltWith (.illegalServiceCall code))

/-- ECALL: the service of the whole 32-bit code in a0, with its argument in a1 (43_system.md rules R191 and R192). -/
def execEcall (_ignored : BitVec 25) (s : State) : Result :=
  if s.getReg a0 = 1 then servicePrintInteger (s.getReg a1) s
  else if s.getReg a0 = 4 then servicePrintString (s.getReg a1) s
  else if s.getReg a0 = 10 then serviceExit s
  else if s.getReg a0 = 11 then servicePrintCharacter (s.getReg a1) s
  else serviceIllegal (s.getReg a0) s

end Sys2Proof.Machine
end

