-- ==== Sys2Proof/Machine/Dispatch.lean ====
section
/-! DEFINITION. One arm per instruction (30_encoding.md rule R72). -/

namespace Sys2Proof.Machine

def exec (i : Instr) (s : State) : Host.Outcome State Fault Refusal :=
  match i with
  | .add rd rs1 rs2 => Sys2Proof.Machine.execAdd rd rs1 rs2 s
  | .mul rd rs1 rs2 => Sys2Proof.Machine.execMul rd rs1 rs2 s
  | .sub rd rs1 rs2 => Sys2Proof.Machine.execSub rd rs1 rs2 s
  | .sll rd rs1 rs2 => Sys2Proof.Machine.execSll rd rs1 rs2 s
  | .mulh rd rs1 rs2 => Sys2Proof.Machine.execMulh rd rs1 rs2 s
  | .slt rd rs1 rs2 f7 => Sys2Proof.Machine.execSlt rd rs1 rs2 f7 s
  | .xor rd rs1 rs2 => Sys2Proof.Machine.execXor rd rs1 rs2 s
  | .div rd rs1 rs2 => Sys2Proof.Machine.execDiv rd rs1 rs2 s
  | .srl rd rs1 rs2 => Sys2Proof.Machine.execSrl rd rs1 rs2 s
  | .sra rd rs1 rs2 => Sys2Proof.Machine.execSra rd rs1 rs2 s
  | .or rd rs1 rs2 => Sys2Proof.Machine.execOr rd rs1 rs2 s
  | .rem rd rs1 rs2 => Sys2Proof.Machine.execRem rd rs1 rs2 s
  | .and rd rs1 rs2 f7 => Sys2Proof.Machine.execAnd rd rs1 rs2 f7 s
  | .mac rd rs1 rs2 => Sys2Proof.Machine.execMac rd rs1 rs2 s
  | .altMul rd rs1 rs2 => Sys2Proof.Machine.execAltMul rd rs1 rs2 s
  | .altSub rd rs1 rs2 => Sys2Proof.Machine.execAltSub rd rs1 rs2 s
  | .altSll rd rs1 rs2 => Sys2Proof.Machine.execAltSll rd rs1 rs2 s
  | .altMulh rd rs1 rs2 => Sys2Proof.Machine.execAltMulh rd rs1 rs2 s
  | .altSlt rd rs1 rs2 f7 => Sys2Proof.Machine.execAltSlt rd rs1 rs2 f7 s
  | .altXor rd rs1 rs2 => Sys2Proof.Machine.execAltXor rd rs1 rs2 s
  | .altDiv rd rs1 rs2 => Sys2Proof.Machine.execAltDiv rd rs1 rs2 s
  | .altSrl rd rs1 rs2 => Sys2Proof.Machine.execAltSrl rd rs1 rs2 s
  | .altSra rd rs1 rs2 => Sys2Proof.Machine.execAltSra rd rs1 rs2 s
  | .altOr rd rs1 rs2 => Sys2Proof.Machine.execAltOr rd rs1 rs2 s
  | .altRem rd rs1 rs2 => Sys2Proof.Machine.execAltRem rd rs1 rs2 s
  | .altAnd rd rs1 rs2 f7 => Sys2Proof.Machine.execAltAnd rd rs1 rs2 f7 s
  | .addi rd rs1 imm => Sys2Proof.Machine.execAddi rd rs1 imm s
  | .slli rd rs1 imm => Sys2Proof.Machine.execSlli rd rs1 imm s
  | .slti rd rs1 imm => Sys2Proof.Machine.execSlti rd rs1 imm s
  | .xori rd rs1 imm => Sys2Proof.Machine.execXori rd rs1 imm s
  | .srli rd rs1 imm => Sys2Proof.Machine.execSrli rd rs1 imm s
  | .ori rd rs1 imm => Sys2Proof.Machine.execOri rd rs1 imm s
  | .andi rd rs1 imm => Sys2Proof.Machine.execAndi rd rs1 imm s
  | .lui rd imm => Sys2Proof.Machine.execLui rd imm s
  | .beq rs1 rs2 offset => Sys2Proof.Machine.execBeq rs1 rs2 offset s
  | .bne rs1 rs2 offset => Sys2Proof.Machine.execBne rs1 rs2 offset s
  | .jal rd offset => Sys2Proof.Machine.execJal rd offset s
  | .lb rd rs1 imm => Sys2Proof.Machine.execLb rd rs1 imm s
  | .lh rd rs1 imm => Sys2Proof.Machine.execLh rd rs1 imm s
  | .lw rd rs1 imm => Sys2Proof.Machine.execLw rd rs1 imm s
  | .sb rs1 rs2 imm => Sys2Proof.Machine.execSb rs1 rs2 imm s
  | .sh rs1 rs2 imm => Sys2Proof.Machine.execSh rs1 rs2 imm s
  | .sw rs1 rs2 imm => Sys2Proof.Machine.execSw rs1 rs2 imm s
  | .ecall ignored => Sys2Proof.Machine.execEcall ignored s

end Sys2Proof.Machine
end

