-- ==== Sys2Proof/Machine/Entry.lean ====
section
/-! DEFINITION. The core's single entry point: one instruction given its raw bits, the registers, the program counter and
the memory (00_scope.md rule R10). -/

namespace Sys2Proof.Machine

/-- One activation of the core on a fetched word: it executes the instruction, or halts with the word before any operand
is read (60_exceptions.md rules R211 and R219). -/
def executeWord (w : Word) (s : State) : Result :=
  match decodeWord s.cfg.macOpcode w with
  | .ok i => exec i s
  | .error _ => .next (s.haltWith (.invalidInstruction w))

end Sys2Proof.Machine
end

