-- ==== Sys2Proof/Machine/Step.lean ====
section
/-! DEFINITION. One step of the core, and the host's placing of a word where the next step fetches. -/

namespace Sys2Proof.Machine

/-- One step: the reference fetch, then one activation of the core (20_memory.md rule R49, 70_reset_and_hazards.md rule
R243). A fetch out of bounds halts before anything else (60_exceptions.md rule R219); in a halted state there is no
step (rule R213). -/
def step (s : State) : Host.Outcome State Fault Refusal :=
  match s.status with
  | .halted reason => .fault (.halted reason)
  | .running =>
    match s.fetch with
    | .error reason => .next (s.haltWith reason)
    | .ok w => executeWord w s

/-- The loader's placing of one word at `pc` (log entry 5), where memory has room for it. -/
def State.withFetchWord (s : State) (nbits w : Nat) : State :=
  if s.inbounds s.pc .word then s.memWrite s.pc .word (BitVec.ofNat 32 (w % 2 ^ nbits)) else s

end Sys2Proof.Machine
end

