-- ==== Sys2Proof/Safety.lean ====
section
/-! DEFINITION. The terms that claims about the core use: its invariant, what an instruction may write, the memory it
reaches, the invalid words, and failure. -/

namespace Sys2Proof.Machine

/-! ## The invariant -/

/-- The parameters meet their constraints (00_scope.md rule R9), memory is in canonical form, and no address outside
`[0, MEMORY_SPACE)` is listed (10_state.md rule R31). -/
abbrev State.Inv (s : State) : Prop :=
  s.cfg.wf ∧ s.mem.wf = true ∧ s.mem.within s.cfg.memorySpace = true

/-- A halt other than the exit service (10_state.md rule R32). -/
def State.failed (s : State) : Bool :=
  match s.status with
  | .running => false
  | .halted reason => !reason.isSuccess

/-! ## What a step leaves alone -/

/-- Every register but `rd`, every byte of memory, the output, the status and the parameters are as before. -/
def KeepsAllBut (rd : RegIdx) (s t : State) : Prop :=
  (∀ r, r ≠ rd → t.getReg r = s.getReg r) ∧ (∀ a, t.mem.read a = s.mem.read a) ∧ t.out = s.out ∧
    t.status = s.status ∧ t.cfg = s.cfg

/-- Every register, every byte of memory and the parameters are as before. -/
def KeepsRegistersAndMemory (s t : State) : Prop :=
  (∀ r, t.getReg r = s.getReg r) ∧ (∀ a, t.mem.read a = s.mem.read a) ∧ t.cfg = s.cfg

/-- `i` completes by writing `x[rd]` alone and advancing by 4, and the new value has the property `value`. -/
def CompletesWriting (i : Instr) (s : State) (rd : RegIdx) (value : Word → Prop) : Prop :=
  ∃ t, exec i s = .next t ∧ value (t.getReg rd) ∧ t.pc = s.pc + 4 ∧ KeepsAllBut rd s t

/-- `i` completes by storing the low `n` bytes of `v` at `ea` little-endian and advancing by 4; every byte of memory
outside the `n` stored ones is as before. -/
def CompletesStoring (i : Instr) (s : State) (ea : Word) (n : Nat) (v : Word) : Prop :=
  ∃ t, exec i s = .next t ∧ (∀ k, k < n → t.mem.read (uint ea + k) = v.extractLsb' (8 * k) 8) ∧
    (∀ a, a < uint ea ∨ uint ea + n ≤ a → t.mem.read a = s.mem.read a) ∧ (∀ r, t.getReg r = s.getReg r) ∧
    t.pc = s.pc + 4 ∧ t.out = s.out ∧ t.status = s.status ∧ t.cfg = s.cfg

/-- `i` completes by setting the program counter to `target`; everything else is as before. -/
def CompletesJumping (i : Instr) (s : State) (target : Int) : Prop :=
  ∃ t, exec i s = .next t ∧ (uint t.pc : Int) = target % 2 ^ 32 ∧ KeepsRegistersAndMemory s t ∧ t.out = s.out ∧
    t.status = s.status

/-- `i` completes by appending `items` to the output and advancing by 4; everything else is as before. -/
def CompletesPrinting (i : Instr) (s : State) (items : List OutItem) : Prop :=
  ∃ t, exec i s = .next t ∧ t.out = s.out ++ items ∧ t.pc = s.pc + 4 ∧ t.status = s.status ∧
    KeepsRegistersAndMemory s t

/-! ## Words -/

/-- Whatever the alternate opcode, the word is this instruction. -/
def DecodesTo (w : Word) (i : Instr) : Prop := ∀ mac, mac ∉ classOpcodes → decodeWord mac w = .ok i

/-- `M[pc+3] ++ M[pc+2] ++ M[pc+1] ++ M[pc]` (20_memory.md rules R43 and R49). -/
def State.wordAtPc (s : State) : Word :=
  s.mem.read (uint s.pc + 3) ++ s.mem.read (uint s.pc + 2) ++ s.mem.read (uint s.pc + 1) ++ s.mem.read (uint s.pc)

/-- The state runs and its next word is `i`. -/
def State.AboutToRun (s : State) (i : Instr) : Prop :=
  s.status = .running ∧ uint s.pc + 4 ≤ s.cfg.memorySpace ∧ decodeWord s.cfg.macOpcode s.wordAtPc = .ok i

/-- The funct3 and funct7 combinations of 30_encoding.md rule R73's table. -/
def ListedRow (f3 : BitVec 3) (f7 : BitVec 7) : Prop :=
  (f3 = 0 ∧ (f7 = 0x00 ∨ f7 = 0x01 ∨ f7 = 0x20)) ∨ (f3 = 1 ∧ (f7 = 0x00 ∨ f7 = 0x01)) ∨ f3 = 2 ∨
    (f3 = 4 ∧ (f7 = 0x00 ∨ f7 = 0x01)) ∨ (f3 = 5 ∧ (f7 = 0x00 ∨ f7 = 0x20)) ∨
    (f3 = 6 ∧ (f7 = 0x00 ∨ f7 = 0x01)) ∨ f3 = 7

/-- The six cases of 30_encoding.md rule R80, on the bits of the word. -/
def InvalidWord (mac : BitVec 7) (w : Word) : Prop :=
  (w.extractLsb' 0 7 ∉ classOpcodes ∧ w.extractLsb' 0 7 ≠ mac) ∨
    ((w.extractLsb' 0 7 = 0x33 ∨ w.extractLsb' 0 7 = mac) ∧ ¬ ListedRow (w.extractLsb' 12 3) (w.extractLsb' 25 7)) ∨
    (w.extractLsb' 0 7 = 0x13 ∧ w.extractLsb' 12 3 = 3) ∨
    (w.extractLsb' 0 7 = 0x03 ∧ w.extractLsb' 12 3 ∈ [3, 4, 5, 6, 7]) ∨
    (w.extractLsb' 0 7 = 0x23 ∧ w.extractLsb' 12 3 ∈ [3, 4, 5, 6, 7]) ∨
    (w.extractLsb' 0 7 = 0x63 ∧ w.extractLsb' 12 3 ∈ [2, 3, 4, 5, 6, 7])

/-! ## What an instruction reaches -/

/-- The register an instruction writes (10_state.md rule R23). -/
def destReg : Instr → Option RegIdx
  | .add rd _ _ => some rd
  | .mul rd _ _ => some rd
  | .sub rd _ _ => some rd
  | .sll rd _ _ => some rd
  | .mulh rd _ _ => some rd
  | .slt rd _ _ _ => some rd
  | .xor rd _ _ => some rd
  | .div rd _ _ => some rd
  | .srl rd _ _ => some rd
  | .sra rd _ _ => some rd
  | .or rd _ _ => some rd
  | .rem rd _ _ => some rd
  | .and rd _ _ _ => some rd
  | .mac rd _ _ => some rd
  | .altMul rd _ _ => some rd
  | .altSub rd _ _ => some rd
  | .altSll rd _ _ => some rd
  | .altMulh rd _ _ => some rd
  | .altSlt rd _ _ _ => some rd
  | .altXor rd _ _ => some rd
  | .altDiv rd _ _ => some rd
  | .altSrl rd _ _ => some rd
  | .altSra rd _ _ => some rd
  | .altOr rd _ _ => some rd
  | .altRem rd _ _ => some rd
  | .altAnd rd _ _ _ => some rd
  | .addi rd _ _ => some rd
  | .slli rd _ _ => some rd
  | .slti rd _ _ => some rd
  | .xori rd _ _ => some rd
  | .srli rd _ _ => some rd
  | .ori rd _ _ => some rd
  | .andi rd _ _ => some rd
  | .lui rd _ => some rd
  | .beq _ _ _ => none
  | .bne _ _ _ => none
  | .jal rd _ => some rd
  | .lb rd _ _ => some rd
  | .lh rd _ _ => some rd
  | .lw rd _ _ => some rd
  | .sb _ _ _ => none
  | .sh _ _ _ => none
  | .sw _ _ _ => none
  | .ecall _ => none

/-- The effective address, width and kind of the data access of a load or store (42_loadstore.md rules R170 and R173 to
R178); nothing for every other instruction. -/
def dataAccess (s : State) : Instr → Option (Word × AccessWidth × AccessKind)
  | .add _ _ _ => none
  | .mul _ _ _ => none
  | .sub _ _ _ => none
  | .sll _ _ _ => none
  | .mulh _ _ _ => none
  | .slt _ _ _ _ => none
  | .xor _ _ _ => none
  | .div _ _ _ => none
  | .srl _ _ _ => none
  | .sra _ _ _ => none
  | .or _ _ _ => none
  | .rem _ _ _ => none
  | .and _ _ _ _ => none
  | .mac _ _ _ => none
  | .altMul _ _ _ => none
  | .altSub _ _ _ => none
  | .altSll _ _ _ => none
  | .altMulh _ _ _ => none
  | .altSlt _ _ _ _ => none
  | .altXor _ _ _ => none
  | .altDiv _ _ _ => none
  | .altSrl _ _ _ => none
  | .altSra _ _ _ => none
  | .altOr _ _ _ => none
  | .altRem _ _ _ => none
  | .altAnd _ _ _ _ => none
  | .addi _ _ _ => none
  | .slli _ _ _ => none
  | .slti _ _ _ => none
  | .xori _ _ _ => none
  | .srli _ _ _ => none
  | .ori _ _ _ => none
  | .andi _ _ _ => none
  | .lui _ _ => none
  | .beq _ _ _ => none
  | .bne _ _ _ => none
  | .jal _ _ => none
  | .lb _ rs1 imm => some (effectiveAddress s rs1 (immI imm), .byte, .load)
  | .lh _ rs1 imm => some (effectiveAddress s rs1 (immI imm), .half, .load)
  | .lw _ rs1 imm => some (effectiveAddress s rs1 (immI imm), .word, .load)
  | .sb rs1 _ imm => some (effectiveAddress s rs1 (immS imm), .byte, .store)
  | .sh rs1 _ imm => some (effectiveAddress s rs1 (immS imm), .half, .store)
  | .sw rs1 _ imm => some (effectiveAddress s rs1 (immS imm), .word, .store)
  | .ecall _ => none

/-! ## Printed numbers -/

/-- The number that a string of decimal digits names. -/
def decimalValue (digits : List Byte) : Nat := digits.foldl (fun n d => 10 * n + (d.toNat - 0x30)) 0

/-- `text` is `i` in decimal: a `-` exactly for a negative number, then digits that name its magnitude with no leading
zero (43_system.md rule R190). -/
def IsDecimalOf (i : Int) (text : List Byte) : Prop :=
  ∃ digits, text = (if i < 0 then [0x2D] else []) ++ digits ∧ digits ≠ [] ∧
    (∀ d ∈ digits, 0x30 ≤ d.toNat ∧ d.toNat ≤ 0x39) ∧ decimalValue digits = i.natAbs ∧
    (digits.head? = some 0x30 → digits = [0x30])

end Sys2Proof.Machine
end

