-- ==== Sys2Proof/Certificates/Slice0/Obligations.lean ====
section
/-! DEFINITION. The statements for the provers. Each docstring names the rule or section of the spec it rests on; where
that text carries a decision of the spec ([decision: Dn]) the decision is named. -/

open Sys2Proof Sys2Proof.Machine

/-! ## Encoding -/

/-- 30_encoding.md rules R62 to R79 on example words of 40_alu.md, 41_control.md, 42_loadstore.md, 43_system.md and
95_test_vectors.md, one of each family; the alternate word takes `MAC_OPCODE` = 0x0B (log entry 2). -/
def Obligations.SpecExampleWordsDecode : Prop :=
  decodeWord 0x0B 0x402081B3 = .ok (.sub 3 1 2) ∧ decodeWord 0x0B 0x4020818B = .ok (.altSub 3 1 2) ∧
    decodeWord 0x0B 0x0020818B = .ok (.mac 3 1 2) ∧ decodeWord 0x0B 0xFFC0A193 = .ok (.slti 3 1 0xFFC) ∧
    decodeWord 0x0B 0x123451B7 = .ok (.lui 3 0x12345) ∧ decodeWord 0x0B 0xFE209CE3 = .ok (.bne 1 2 0x1FF8) ∧
    decodeWord 0x0B 0x001000EF = .ok (.jal 1 0x800) ∧ decodeWord 0x0B 0x00308183 = .ok (.lb 3 1 3) ∧
    decodeWord 0x0B 0xFE20AE23 = .ok (.sw 1 2 0xFFC) ∧ decodeWord 0x0B 0x00100073 = .ok (.ecall 0x002000)

/-- Decoding the word of a well-formed instruction gives the instruction back, whatever the alternate opcode. -/
def Obligations.DecodeOfEncodeIsTheInstruction : Prop :=
  ∀ mac i, mac ∉ classOpcodes → i.wf = true → decodeWord mac (encode mac i) = .ok i

/-- An accepted word is the word of the instruction it decodes to, which is well formed: no bit of it is lost
(30_encoding.md rule R82 accepts every value of an unexamined bit; log entry 6). -/
def Obligations.AcceptedWordIsTheEncoding : Prop :=
  ∀ mac w i, mac ∉ classOpcodes → decodeWord mac w = .ok i → i.wf = true ∧ encode mac i = w

/-- 30_encoding.md rule R80 (decision D10) and 60_exceptions.md rule R211: a word is rejected exactly in the six cases,
and a step that fetches a rejected word halts with it and changes nothing else. -/
def Obligations.InvalidWordsAreExactlyTheSixCases : Prop :=
  (∀ mac w, mac ∉ classOpcodes → ((∀ i, decodeWord mac w ≠ .ok i) ↔ InvalidWord mac w)) ∧
    (∀ s : State, s.cfg.macOpcode ∉ classOpcodes → s.status = .running → uint s.pc + 4 ≤ s.cfg.memorySpace →
      InvalidWord s.cfg.macOpcode s.wordAtPc →
      step s = .next { s with status := .halted (.invalidInstruction s.wordAtPc) })

/-- 30_encoding.md rules R66 to R70 (decisions D6 and D9): the 32-bit immediates of a word, written as shifts and masks
of the word itself. -/
def Obligations.ImmediatesAreShiftedFields : Prop :=
  ∀ w : Word, immI (immIField w) = w.sshiftRight 20 ∧
    immS (immSField w) = (w.sshiftRight 25 <<< 5) ||| (w >>> 7 &&& 0x1F) ∧
    immB (immBField w) =
      (w.sshiftRight 31 <<< 12) ||| (w <<< 4 &&& 0x800) ||| (w >>> 20 &&& 0x7E0) ||| (w >>> 7 &&& 0x1E) ∧
    immU (immUField w) = w &&& 0xFFFFF000 ∧
    immJ (immJField w) =
      (w.sshiftRight 31 <<< 20) ||| (w &&& 0xFF000) ||| (w >>> 9 &&& 0x800) ||| (w >>> 20 &&& 0x7FE)

/-- 30_encoding.md rule R79 (decision D21): every word with opcode 0x73 is the system call, and none of its other bits
has an effect. -/
def Obligations.EveryOpcode73WordIsTheSystemCall : Prop :=
  (∀ (w : Word), w.extractLsb' 0 7 = 0x73 → DecodesTo w (.ecall (w.extractLsb' 7 25))) ∧
    (∀ a b s, exec (.ecall a) s = exec (.ecall b) s)

/-! ## The step -/

/-- 20_memory.md rules R43 and R49 (decision D19): a running core whose next word is `i` does exactly what `i` does. -/
def Obligations.StepRunsTheDecodedInstruction : Prop :=
  ∀ (s : State) i, s.AboutToRun i → step s = exec i s

/-- 20_memory.md rule R49 (decision D19): a fetch out of bounds halts the core and changes nothing else. -/
def Obligations.FetchOutOfBoundsHalts : Prop :=
  ∀ s : State, s.status = .running → s.cfg.memorySpace < uint s.pc + 4 →
    step s = .next { s with status := .halted (.fetchFault s.pc) }

/-- 60_exceptions.md rule R213 (decision D24): a running core always takes a step, a halted one never. That the missing
step is the fault `halted` is the model's choice (log entry 4). -/
def Obligations.ExactlyTheRunningStatesStep : Prop :=
  ∀ s : State, ((∃ t, step s = .next t) ↔ s.status = .running) ∧
    (∀ reason, s.status = .halted reason → step s = .fault (.halted reason))

/-- 60_exceptions.md rule R214 (decisions D18 and D24): the step that halts leaves registers, memory and pc as they
were, and only the exit service prints. -/
def Obligations.HaltsArePrecise : Prop :=
  ∀ (s t : State) reason, step s = .next t → t.status = .halted reason →
    t.regs = s.regs ∧ t.pc = s.pc ∧ t.mem = s.mem ∧ t.cfg = s.cfg ∧
      t.out = (if reason = .exit then s.out ++ [.exitBanner] else s.out)

/-- 60_exceptions.md rules R210 and R219 (decisions D18, D19, D24, D29): each halt reason occurs exactly under its
condition and records its value. -/
def Obligations.EachHaltReasonHasItsCause : Prop :=
  ∀ s t : State, s.cfg.macOpcode ∉ classOpcodes → s.status = .running → step s = .next t →
    (∀ a, t.status = .halted (.fetchFault a) ↔ s.cfg.memorySpace < uint s.pc + 4 ∧ a = s.pc) ∧
    (∀ w, t.status = .halted (.invalidInstruction w) ↔
      uint s.pc + 4 ≤ s.cfg.memorySpace ∧ w = s.wordAtPc ∧ InvalidWord s.cfg.macOpcode w) ∧
    (∀ a w k, t.status = .halted (.memoryFault a w k) ↔
      ∃ i, s.AboutToRun i ∧ dataAccess s i = some (a, w, k) ∧ s.cfg.memorySpace < uint a + w.bytes) ∧
    (∀ c, t.status = .halted (.illegalServiceCall c) ↔
      ∃ b, s.AboutToRun (.ecall b) ∧ c = s.getReg 10 ∧ c ≠ 1 ∧ c ≠ 4 ∧ c ≠ 10 ∧ c ≠ 11) ∧
    (t.status = .halted .exit ↔ ∃ b, s.AboutToRun (.ecall b) ∧ s.getReg 10 = 10)

/-- 20_memory.md rule R55 (decision D27): a word stored where the next instruction lies is the next instruction. -/
def Obligations.StoredWordIsSeenByTheNextFetch : Prop :=
  ∀ (s t : State) rs1 rs2 imm i, s.AboutToRun (.sw rs1 rs2 imm) → effectiveAddress s rs1 (immS imm) = s.pc + 4 →
    uint (s.pc + 4) + 4 ≤ s.cfg.memorySpace → decodeWord s.cfg.macOpcode (s.getReg rs2) = .ok i →
    step s = .next t → step t = exec i t

/-! ## Invariants and whole-machine rules -/

/-- 10_state.md rule R36 and 70_reset_and_hazards.md rule R240 (decisions D2, D3, D23, D24, D30), for every choice of the
parameters and every loaded image. The last clause is about the model's own `State.reset` (log entries 2 and 3). -/
def Obligations.ResetLeavesTheStatedValues : Prop :=
  (∀ (c : Config) (image : Memory), c.wf → image.wf = true → image.within c.memorySpace = true →
    (State.resetWith c image).Inv ∧ (∀ r, (State.resetWith c image).getReg r = 0) ∧
      (State.resetWith c image).pc = c.entry ∧ (∀ a, (State.resetWith c image).mem.read a = image.read a) ∧
      (State.resetWith c image).out = [] ∧ (State.resetWith c image).status = .running) ∧
    State.reset.Inv

/-- Every step keeps the invariant: the parameters' constraints (00_scope.md rule R9), the canonical form of memory (log
entry 3), and no byte outside the memory (10_state.md rule R31, decision D4). -/
def Obligations.EveryStepKeepsTheInvariant : Prop :=
  ∀ s t : State, s.Inv → step s = .next t → t.Inv ∧ t.cfg = s.cfg

/-- 41_control.md rule R154 and 10_state.md rule R26 (decision D20): every step keeps bit 0 of pc. -/
def Obligations.EveryStepKeepsBitZeroOfPc : Prop :=
  ∀ s t : State, step s = .next t → t.pc.getLsbD 0 = s.pc.getLsbD 0

/-- 10_state.md rule R25 (decision D24): an instruction that does not halt advances pc by 4, unless it is a jump or a
taken branch; one that halts leaves it. -/
def Obligations.PcAdvancesByFourUnlessOverridden : Prop :=
  ∀ i (s t : State), s.status = .running → exec i s = .next t →
    (t.status ≠ .running → t.pc = s.pc) ∧
      (t.status = .running → t.pc ≠ s.pc + 4 →
        (∃ rs1 rs2 offset, (i = .beq rs1 rs2 offset ∨ i = .bne rs1 rs2 offset) ∧ t.pc = s.pc + immB offset) ∨
          ∃ rd offset, i = .jal rd offset ∧ t.pc = s.pc + immJ offset)

/-- 10_state.md rule R23: no instruction changes a register other than its destination, and stores, branches and the
system call change none. -/
def Obligations.OnlyTheDestinationRegisterChanges : Prop :=
  ∀ i (s t : State), exec i s = .next t → ∀ r, destReg i ≠ some r → t.getReg r = s.getReg r

/-- 10_state.md rule R31 (decisions D4 and D19): memory is changed by stores only, and only at the bytes of their
access, which lie in memory. -/
def Obligations.OnlyStoresChangeMemory : Prop :=
  ∀ (s t : State) a, step s = .next t → t.mem.read a ≠ s.mem.read a →
    ∃ i ea w, s.AboutToRun i ∧ dataAccess s i = some (ea, w, .store) ∧ uint ea ≤ a ∧ a < uint ea + w.bytes ∧
      a < s.cfg.memorySpace

/-- 10_state.md rule R33 (decision D23): the output only grows, and only the system call appends to it. -/
def Obligations.OnlyTheSystemCallPrints : Prop :=
  ∀ i (s t : State), exec i s = .next t →
    (∃ items, t.out = s.out ++ items) ∧ (t.out ≠ s.out → ∃ b, i = .ecall b)

/-- 10_state.md rule R33 (decision D23) and 70_reset_and_hazards.md rule R245: nothing reads the output back, so a step
does and prints the same whatever was printed before. -/
def Obligations.OutputIsNeverReadBack : Prop :=
  ∀ s t : State, step s = .next t →
    ∃ items, t.out = s.out ++ items ∧ ∀ before, step { s with out := before } = .next { t with out := before ++ items }

/-- 10_state.md rule R21 (decision D1): x0 is an ordinary register. JAL links into it, an addition of zero leaves it as
it is, and what is written to it is read from it. -/
def Obligations.RegisterZeroIsOrdinary : Prop :=
  ∀ s : State, (∀ offset, ∃ t, exec (.jal 0 offset) s = .next t ∧ t.getReg 0 = s.pc + 4) ∧
    (∃ t, exec (.addi 0 0 0) s = .next t ∧ ∀ r, t.getReg r = s.getReg r) ∧
    (∀ imm, ∃ t u, exec (.lui 0 imm) s = .next t ∧ exec (.add 1 0 0) t = .next u ∧
      u.getReg 1 = immU imm + immU imm)

/-! ## Memory -/

/-- Canonical memories that hold the same bytes are the same data (the model's representation, log entry 3). -/
def Obligations.CanonicalMemoriesThatReadAlikeAreEqual : Prop :=
  ∀ m n : Memory, m.wf = true → n.wf = true → (∀ a, m.read a = n.read a) → m = n

/-- 20_memory.md rule R48 (decision D17): the effective address is the signed sum modulo 2^32, which is the wrapping sum
of the two words. -/
def Obligations.EffectiveAddressIsTheWrappingSum : Prop :=
  ∀ (s : State) rs1 imm, effectiveAddress s rs1 imm = s.getReg rs1 + imm ∧
    (uint (effectiveAddress s rs1 imm) : Int) = (sint (s.getReg rs1) + sint imm) % 2 ^ 32

/-- 42_loadstore.md rules R170, R171 and R173 to R175 (decisions D16 to D18): a load in bounds, at any alignment, writes
the sign-extended little-endian value of its bytes. -/
def Obligations.LoadsInBoundsReadTheirBytes : Prop :=
  ∀ (s : State) rd rs1 imm, (∀ ea, ea = effectiveAddress s rs1 (immI imm) →
    (uint ea + 1 ≤ s.cfg.memorySpace →
      CompletesWriting (.lb rd rs1 imm) s rd fun v => sint v = (s.mem.read (uint ea)).toInt) ∧
    (uint ea + 2 ≤ s.cfg.memorySpace →
      CompletesWriting (.lh rd rs1 imm) s rd fun v =>
        sint v = (s.mem.read (uint ea + 1) ++ s.mem.read (uint ea)).toInt) ∧
    (uint ea + 4 ≤ s.cfg.memorySpace →
      CompletesWriting (.lw rd rs1 imm) s rd fun v =>
        v = s.mem.read (uint ea + 3) ++ s.mem.read (uint ea + 2) ++ s.mem.read (uint ea + 1) ++
          s.mem.read (uint ea))) ∧
    DecodesTo (wordI imm rs1 0 rd 0x03) (.lb rd rs1 imm) ∧ DecodesTo (wordI imm rs1 1 rd 0x03) (.lh rd rs1 imm) ∧
    DecodesTo (wordI imm rs1 2 rd 0x03) (.lw rd rs1 imm)

/-- 42_loadstore.md rules R170, R172 and R176 to R178, 30_encoding.md rules R67 and R77 (decisions D6, D8, D17 and D18,
log entry 9): a store in bounds, at any alignment, writes the low bytes of `x[rs2]` little-endian and nothing else. -/
def Obligations.StoresInBoundsWriteTheLowBytes : Prop :=
  ∀ (s : State) rs1 rs2 imm, (∀ ea, ea = effectiveAddress s rs1 (immS imm) →
    (uint ea + 1 ≤ s.cfg.memorySpace → CompletesStoring (.sb rs1 rs2 imm) s ea 1 (s.getReg rs2)) ∧
    (uint ea + 2 ≤ s.cfg.memorySpace → CompletesStoring (.sh rs1 rs2 imm) s ea 2 (s.getReg rs2)) ∧
    (uint ea + 4 ≤ s.cfg.memorySpace → CompletesStoring (.sw rs1 rs2 imm) s ea 4 (s.getReg rs2))) ∧
    DecodesTo (wordS imm rs2 rs1 0 0x23) (.sb rs1 rs2 imm) ∧ DecodesTo (wordS imm rs2 rs1 1 0x23) (.sh rs1 rs2 imm) ∧
    DecodesTo (wordS imm rs2 rs1 2 0x23) (.sw rs1 rs2 imm)

/-- 20_memory.md rules R46 and R47 (decision D18): a load or store out of bounds halts the core with its address, width
and kind, and changes nothing else: no register, no byte, not pc. -/
def Obligations.OutOfBoundsAccessesHalt : Prop :=
  ∀ i (s : State) ea w k, dataAccess s i = some (ea, w, k) → s.cfg.memorySpace < uint ea + w.bytes →
    exec i s = .next { s with status := .halted (.memoryFault ea w k) }

/-- 42_loadstore.md rule R179: a load, in a state that still holds the bytes a store of the same width wrote at the same
address, gives the stored value, sign-extended from its width. -/
def Obligations.StoreThenLoadRoundTrips : Prop :=
  ∀ (s t u : State) rs1 rs2 imm rd rs1' imm' (ea : Word), ea = effectiveAddress s rs1 (immS imm) →
    ea = effectiveAddress u rs1' (immI imm') → u.cfg = s.cfg →
    (uint ea + 1 ≤ s.cfg.memorySpace → exec (.sb rs1 rs2 imm) s = .next t →
      (∀ k, k < 1 → u.mem.read (uint ea + k) = t.mem.read (uint ea + k)) →
      CompletesWriting (.lb rd rs1' imm') u rd fun v => v = ((s.getReg rs2).setWidth 8).signExtend 32) ∧
    (uint ea + 2 ≤ s.cfg.memorySpace → exec (.sh rs1 rs2 imm) s = .next t →
      (∀ k, k < 2 → u.mem.read (uint ea + k) = t.mem.read (uint ea + k)) →
      CompletesWriting (.lh rd rs1' imm') u rd fun v => v = ((s.getReg rs2).setWidth 16).signExtend 32) ∧
    (uint ea + 4 ≤ s.cfg.memorySpace → exec (.sw rs1 rs2 imm) s = .next t →
      (∀ k, k < 4 → u.mem.read (uint ea + k) = t.mem.read (uint ea + k)) →
      CompletesWriting (.lw rd rs1' imm') u rd fun v => v = s.getReg rs2)

/-! ## The arithmetic/logical unit -/

/-- 40_alu.md rules R104 and R106: ADD and SUB wrap modulo 2^32. -/
def Obligations.AddAndSubWrap : Prop :=
  ∀ (s : State) rd rs1 rs2,
    CompletesWriting (.add rd rs1 rs2) s rd
      (fun v => (uint v : Int) = (uint (s.getReg rs1) + uint (s.getReg rs2)) % 2 ^ 32) ∧
    CompletesWriting (.sub rd rs1 rs2) s rd
      (fun v => (uint v : Int) = (uint (s.getReg rs1) - uint (s.getReg rs2)) % 2 ^ 32) ∧
    DecodesTo (wordR 0x00 rs2 rs1 0 rd 0x33) (.add rd rs1 rs2) ∧
    DecodesTo (wordR 0x20 rs2 rs1 0 rd 0x33) (.sub rd rs1 rs2)

/-- 40_alu.md rules R105 and R108: MUL gives the low word of the signed product and MULH the high word, so that the two
together are the whole product. -/
def Obligations.MulAndMulhGiveTheWholeProduct : Prop :=
  ∀ (s : State) rd rs1 rs2,
    CompletesWriting (.mul rd rs1 rs2) s rd
      (fun v => (uint v : Int) = sint (s.getReg rs1) * sint (s.getReg rs2) % 2 ^ 32) ∧
    CompletesWriting (.mulh rd rs1 rs2) s rd
      (fun v => ∃ low : Word, (uint low : Int) = sint (s.getReg rs1) * sint (s.getReg rs2) % 2 ^ 32 ∧
        sint v * 2 ^ 32 + uint low = sint (s.getReg rs1) * sint (s.getReg rs2)) ∧
    DecodesTo (wordR 0x01 rs2 rs1 0 rd 0x33) (.mul rd rs1 rs2) ∧
    DecodesTo (wordR 0x01 rs2 rs1 1 rd 0x33) (.mulh rd rs1 rs2)

/-- 40_alu.md rules R102, R107, R112 and R113 (decision D13): the register shifts move bits by the whole unsigned value
of `x[rs2]`, so that an amount of 32 or more leaves zeros, or copies of the sign. -/
def Obligations.RegisterShiftsMoveBitsByTheWholeAmount : Prop :=
  ∀ (s : State) rd rs1 rs2,
    CompletesWriting (.sll rd rs1 rs2) s rd
      (fun v => ∀ k < 32, v.getLsbD k =
        (decide (uint (s.getReg rs2) ≤ k) && (s.getReg rs1).getLsbD (k - uint (s.getReg rs2)))) ∧
    CompletesWriting (.srl rd rs1 rs2) s rd
      (fun v => ∀ k < 32, v.getLsbD k = (s.getReg rs1).getLsbD (k + uint (s.getReg rs2))) ∧
    CompletesWriting (.sra rd rs1 rs2) s rd
      (fun v => ∀ k < 32, v.getLsbD k = (s.getReg rs1).getLsbD (min (k + uint (s.getReg rs2)) 31)) ∧
    DecodesTo (wordR 0x00 rs2 rs1 1 rd 0x33) (.sll rd rs1 rs2) ∧
    DecodesTo (wordR 0x00 rs2 rs1 5 rd 0x33) (.srl rd rs1 rs2) ∧
    DecodesTo (wordR 0x20 rs2 rs1 5 rd 0x33) (.sra rd rs1 rs2)

/-- 40_alu.md rules R110 and R114: XOR and OR act bit by bit. -/
def Obligations.XorAndOrActBitwise : Prop :=
  ∀ (s : State) rd rs1 rs2,
    CompletesWriting (.xor rd rs1 rs2) s rd
      (fun v => ∀ k < 32, v.getLsbD k = ((s.getReg rs1).getLsbD k != (s.getReg rs2).getLsbD k)) ∧
    CompletesWriting (.or rd rs1 rs2) s rd
      (fun v => ∀ k < 32, v.getLsbD k = ((s.getReg rs1).getLsbD k || (s.getReg rs2).getLsbD k)) ∧
    DecodesTo (wordR 0x00 rs2 rs1 4 rd 0x33) (.xor rd rs1 rs2) ∧
    DecodesTo (wordR 0x00 rs2 rs1 6 rd 0x33) (.or rd rs1 rs2)

/-- 40_alu.md rules R109 and R116 (decision D11): SLT compares signed values, AND acts bit by bit, and every funct7
selects them. -/
def Obligations.SltAndAndIgnoreFunct7 : Prop :=
  ∀ (s : State) rd rs1 rs2 f7,
    CompletesWriting (.slt rd rs1 rs2 f7) s rd
      (fun v => v = if sint (s.getReg rs1) < sint (s.getReg rs2) then 1 else 0) ∧
    CompletesWriting (.and rd rs1 rs2 f7) s rd
      (fun v => ∀ k < 32, v.getLsbD k = ((s.getReg rs1).getLsbD k && (s.getReg rs2).getLsbD k)) ∧
    DecodesTo (wordR f7 rs2 rs1 2 rd 0x33) (.slt rd rs1 rs2 f7) ∧
    DecodesTo (wordR f7 rs2 rs1 7 rd 0x33) (.and rd rs1 rs2 f7)

/-- 40_alu.md rules R103, R111 and R115 (decision D15): division rounds toward zero, the remainder has the dividend's
sign, and neither division by zero nor overflow traps. -/
def Obligations.DivAndRemDivideTowardZero : Prop :=
  ∀ (s : State) rd rs1 rs2 (a b : Int), a = sint (s.getReg rs1) → b = sint (s.getReg rs2) →
    CompletesWriting (.div rd rs1 rs2) s rd
      (fun q => (b = 0 → q = 0xFFFFFFFF) ∧ (a = -2 ^ 31 ∧ b = -1 → q = 0x80000000) ∧
        (b ≠ 0 → ¬ (a = -2 ^ 31 ∧ b = -1) →
          ∃ r : Int, a = b * sint q + r ∧ r.natAbs < b.natAbs ∧ (r = 0 ∨ r.sign = a.sign))) ∧
    CompletesWriting (.rem rd rs1 rs2) s rd
      (fun r => (b = 0 → sint r = a) ∧ (a = -2 ^ 31 ∧ b = -1 → r = 0) ∧
        (b ≠ 0 → ¬ (a = -2 ^ 31 ∧ b = -1) →
          ∃ q : Int, a = b * q + sint r ∧ (sint r).natAbs < b.natAbs ∧ (sint r = 0 ∨ (sint r).sign = a.sign))) ∧
    DecodesTo (wordR 0x01 rs2 rs1 4 rd 0x33) (.div rd rs1 rs2) ∧
    DecodesTo (wordR 0x01 rs2 rs1 6 rd 0x33) (.rem rd rs1 rs2)

/-- 40_alu.md rule R117 (decisions D5 and D12): MAC adds the signed product to the old `x[rd]`, modulo 2^32. -/
def Obligations.MacAccumulates : Prop :=
  ∀ (s : State) rd rs1 rs2,
    CompletesWriting (.mac rd rs1 rs2) s rd
      (fun v => (uint v : Int) =
        (uint (s.getReg rd) + sint (s.getReg rs1) * sint (s.getReg rs2)) % 2 ^ 32) ∧
    (∀ mac, mac ∉ classOpcodes → decodeWord mac (wordR 0x00 rs2 rs1 0 rd mac) = .ok (.mac rd rs1 rs2))

/-- 30_encoding.md rule R74 and 40_alu.md rules R118 to R129 (decision D12): under the alternate opcode every other row
of the table selects an instruction that completes exactly as its standard namesake does. -/
def Obligations.AlternateFormsActAsTheirNamesakes : Prop :=
  ∀ (s : State) mac rd rs1 rs2 f7, mac ∉ classOpcodes →
    (∀ alt std w, (alt, std, w) ∈
      [(Instr.altMul rd rs1 rs2, Instr.mul rd rs1 rs2, wordR 0x01 rs2 rs1 0 rd mac),
        (.altSub rd rs1 rs2, .sub rd rs1 rs2, wordR 0x20 rs2 rs1 0 rd mac),
        (.altSll rd rs1 rs2, .sll rd rs1 rs2, wordR 0x00 rs2 rs1 1 rd mac),
        (.altMulh rd rs1 rs2, .mulh rd rs1 rs2, wordR 0x01 rs2 rs1 1 rd mac),
        (.altSlt rd rs1 rs2 f7, .slt rd rs1 rs2 f7, wordR f7 rs2 rs1 2 rd mac),
        (.altXor rd rs1 rs2, .xor rd rs1 rs2, wordR 0x00 rs2 rs1 4 rd mac),
        (.altDiv rd rs1 rs2, .div rd rs1 rs2, wordR 0x01 rs2 rs1 4 rd mac),
        (.altSrl rd rs1 rs2, .srl rd rs1 rs2, wordR 0x00 rs2 rs1 5 rd mac),
        (.altSra rd rs1 rs2, .sra rd rs1 rs2, wordR 0x20 rs2 rs1 5 rd mac),
        (.altOr rd rs1 rs2, .or rd rs1 rs2, wordR 0x00 rs2 rs1 6 rd mac),
        (.altRem rd rs1 rs2, .rem rd rs1 rs2, wordR 0x01 rs2 rs1 6 rd mac),
        (.altAnd rd rs1 rs2 f7, .and rd rs1 rs2 f7, wordR f7 rs2 rs1 7 rd mac)] →
      decodeWord mac w = .ok alt ∧ ∃ t, exec alt s = .next t ∧ exec std s = .next t)

/-- 40_alu.md rule R130: ADDI adds the sign-extended immediate, modulo 2^32. -/
def Obligations.AddiAddsTheSignedImmediate : Prop :=
  ∀ (s : State) rd rs1 (imm : BitVec 12),
    CompletesWriting (.addi rd rs1 imm) s rd
      (fun v => (uint v : Int) = (uint (s.getReg rs1) + imm.toInt) % 2 ^ 32) ∧
    DecodesTo (wordI imm rs1 0 rd 0x13) (.addi rd rs1 imm)

/-- 40_alu.md rule R132: SLTI compares with the sign-extended immediate. -/
def Obligations.SltiComparesSigned : Prop :=
  ∀ (s : State) rd rs1 (imm : BitVec 12),
    CompletesWriting (.slti rd rs1 imm) s rd
      (fun v => v = if sint (s.getReg rs1) < imm.toInt then 1 else 0) ∧
    DecodesTo (wordI imm rs1 2 rd 0x13) (.slti rd rs1 imm)

/-- 40_alu.md rules R133, R135 and R136: XORI, ORI and ANDI act bit by bit on the sign-extended immediate. -/
def Obligations.ImmediateLogicActsBitwise : Prop :=
  ∀ (s : State) rd rs1 (imm : BitVec 12) (bit : Nat → Bool),
    (∀ k, bit k = if k < 12 then imm.getLsbD k else imm.getLsbD 11) →
    CompletesWriting (.xori rd rs1 imm) s rd
      (fun v => ∀ k < 32, v.getLsbD k = ((s.getReg rs1).getLsbD k != bit k)) ∧
    CompletesWriting (.ori rd rs1 imm) s rd
      (fun v => ∀ k < 32, v.getLsbD k = ((s.getReg rs1).getLsbD k || bit k)) ∧
    CompletesWriting (.andi rd rs1 imm) s rd
      (fun v => ∀ k < 32, v.getLsbD k = ((s.getReg rs1).getLsbD k && bit k)) ∧
    DecodesTo (wordI imm rs1 4 rd 0x13) (.xori rd rs1 imm) ∧ DecodesTo (wordI imm rs1 6 rd 0x13) (.ori rd rs1 imm) ∧
    DecodesTo (wordI imm rs1 7 rd 0x13) (.andi rd rs1 imm)

/-- 40_alu.md rules R102, R131 and R134 (decision D14): the immediate shifts move bits by the sign-extended immediate
read as unsigned, every bit of it counting. -/
def Obligations.ImmediateShiftsMoveBitsByTheWholeAmount : Prop :=
  ∀ (s : State) rd rs1 (imm : BitVec 12) (amount : Nat), (amount : Int) = imm.toInt % 2 ^ 32 →
    CompletesWriting (.slli rd rs1 imm) s rd
      (fun v => ∀ k < 32, v.getLsbD k = (decide (amount ≤ k) && (s.getReg rs1).getLsbD (k - amount))) ∧
    CompletesWriting (.srli rd rs1 imm) s rd
      (fun v => ∀ k < 32, v.getLsbD k = (s.getReg rs1).getLsbD (k + amount)) ∧
    DecodesTo (wordI imm rs1 1 rd 0x13) (.slli rd rs1 imm) ∧ DecodesTo (wordI imm rs1 5 rd 0x13) (.srli rd rs1 imm)

/-- 40_alu.md rule R137: LUI writes the immediate above twelve zero bits. -/
def Obligations.LuiWritesTheUpperBits : Prop :=
  ∀ (s : State) rd (imm : BitVec 20),
    CompletesWriting (.lui rd imm) s rd (fun v => uint v = imm.toNat * 2 ^ 12) ∧
    DecodesTo (wordU imm rd 0x37) (.lui rd imm)

/-! ## The control-flow unit -/

/-- 41_control.md rules R150 and R151: BEQ and BNE compare the low 16 bits only; a taken branch goes to pc plus the
signed offset, modulo 2^32, and writes nothing else. -/
def Obligations.BranchesCompareTheLowSixteenBits : Prop :=
  ∀ (s : State) rs1 rs2 (offset : BitVec 13),
    (uint (s.getReg rs1) % 2 ^ 16 = uint (s.getReg rs2) % 2 ^ 16 →
      CompletesJumping (.beq rs1 rs2 offset) s (uint s.pc + offset.toInt) ∧
      CompletesJumping (.bne rs1 rs2 offset) s (uint s.pc + 4)) ∧
    (uint (s.getReg rs1) % 2 ^ 16 ≠ uint (s.getReg rs2) % 2 ^ 16 →
      CompletesJumping (.beq rs1 rs2 offset) s (uint s.pc + 4) ∧
      CompletesJumping (.bne rs1 rs2 offset) s (uint s.pc + offset.toInt)) ∧
    (offset.getLsbD 0 = false → DecodesTo (wordB offset rs2 rs1 0 0x63) (.beq rs1 rs2 offset) ∧
      DecodesTo (wordB offset rs2 rs1 1 0x63) (.bne rs1 rs2 offset))

/-- 41_control.md rule R152 (decisions D1 and D9): JAL writes the address after itself into `x[rd]`, x0 included, and
goes to pc plus the signed offset, modulo 2^32. -/
def Obligations.JalLinksAndJumps : Prop :=
  ∀ (s : State) rd (offset : BitVec 21),
    (∃ t, exec (.jal rd offset) s = .next t ∧ t.getReg rd = s.pc + 4 ∧
      (uint t.pc : Int) = (uint s.pc + offset.toInt) % 2 ^ 32 ∧ KeepsAllBut rd s t) ∧
    (offset.getLsbD 0 = false → DecodesTo (wordJ offset rd 0x6F) (.jal rd offset))

/-- 41_control.md rule R154 (decision D20): every even offset of the stated range has a branch word and a jump word that
go exactly that far. -/
def Obligations.OffsetsSpanTheirWholeRange : Prop :=
  (∀ (k : Int) rs1 rs2, k % 2 = 0 → -4096 ≤ k → k ≤ 4094 → ∃ offset : BitVec 13,
    DecodesTo (wordB offset rs2 rs1 0 0x63) (.beq rs1 rs2 offset) ∧
      ∀ s : State, uint (s.getReg rs1) % 2 ^ 16 = uint (s.getReg rs2) % 2 ^ 16 →
        CompletesJumping (.beq rs1 rs2 offset) s (uint s.pc + k)) ∧
    (∀ (k : Int) rd, k % 2 = 0 → -1048576 ≤ k → k ≤ 1048574 → ∃ offset : BitVec 21,
      DecodesTo (wordJ offset rd 0x6F) (.jal rd offset) ∧
        ∀ s : State, ∃ t, exec (.jal rd offset) s = .next t ∧ (uint t.pc : Int) = (uint s.pc + k) % 2 ^ 32)

/-! ## The system call -/

/-- 43_system.md rule R196: service 11 prints the low byte of a1. -/
def Obligations.EcallPrintsACharacter : Prop :=
  ∀ b (s : State), s.getReg 10 = 11 → CompletesPrinting (.ecall b) s [.byte ((s.getReg 11).setWidth 8)]

/-- 43_system.md rules R190 and R193 (decision D23): service 1 prints the signed value of a1 in decimal. -/
def Obligations.EcallPrintsTheSignedDecimal : Prop :=
  ∀ b (s : State), s.getReg 10 = 1 →
    ∃ text, IsDecimalOf (sint (s.getReg 11)) text ∧ CompletesPrinting (.ecall b) s (text.map .byte)

/-- 43_system.md rule R194 (decision D22): service 4 prints the bytes from a1 up to the first zero byte or the end of
memory, and never faults. -/
def Obligations.EcallPrintsTheBoundedString : Prop :=
  ∀ b (s : State), s.getReg 10 = 4 →
    ∃ n, (∀ k < n, uint (s.getReg 11) + k < s.cfg.memorySpace ∧ s.mem.read (uint (s.getReg 11) + k) ≠ 0) ∧
      (s.cfg.memorySpace ≤ uint (s.getReg 11) + n ∨ s.mem.read (uint (s.getReg 11) + n) = 0) ∧
      CompletesPrinting (.ecall b) s ((List.range n).map fun k => .byte (s.mem.read (uint (s.getReg 11) + k)))

/-- 43_system.md rule R195 (decision D24): service 10 emits the banner and halts with success, pc in place, whatever the
other registers hold. -/
def Obligations.EcallExitHaltsWithTheBanner : Prop :=
  ∀ b (s : State), s.getReg 10 = 10 →
    exec (.ecall b) s = .next { s with out := s.out ++ [.exitBanner], status := .halted .exit } ∧
      HaltReason.exit.isSuccess = true

/-- 60_exceptions.md rule R212: any other code halts with the code and changes nothing else. -/
def Obligations.EcallIllegalCodeHalts : Prop :=
  ∀ b (s : State), s.getReg 10 ≠ 1 → s.getReg 10 ≠ 4 → s.getReg 10 ≠ 10 → s.getReg 10 ≠ 11 →
    exec (.ecall b) s = .next { s with status := .halted (.illegalServiceCall (s.getReg 10)) }

/-- 43_system.md rule R192: the system call writes no register, and of the registers only x10 and x11 matter to it. -/
def Obligations.EcallReadsOnlyA0AndA1 : Prop :=
  ∀ b (s : State) (regs : Vector Word 32), regs[10] = s.getReg 10 → regs[11] = s.getReg 11 →
    ∃ t, exec (.ecall b) s = .next t ∧ t.regs = s.regs ∧
      exec (.ecall b) { s with regs := regs } = .next { t with regs := regs }
end

