-- ==== Sys2Proof/Laws/State.lean ====
section
/-! SUPPORT. One lemma per field per update of the state, so that no later proof unfolds an update. -/

namespace Sys2Proof.Machine

/-! ## Fields -/

@[simp] theorem State.setReg_regs (s : State) (r : RegIdx) (v : Word) : (s.setReg r v).regs = s.regs.set r v := rfl
@[simp] theorem State.setReg_pc (s : State) (r : RegIdx) (v : Word) : (s.setReg r v).pc = s.pc := rfl
@[simp] theorem State.setReg_mem (s : State) (r : RegIdx) (v : Word) : (s.setReg r v).mem = s.mem := rfl
@[simp] theorem State.setReg_out (s : State) (r : RegIdx) (v : Word) : (s.setReg r v).out = s.out := rfl
@[simp] theorem State.setReg_status (s : State) (r : RegIdx) (v : Word) : (s.setReg r v).status = s.status := rfl
@[simp] theorem State.setReg_cfg (s : State) (r : RegIdx) (v : Word) : (s.setReg r v).cfg = s.cfg := rfl

@[simp] theorem State.setPc_regs (s : State) (t : Word) : (s.setPc t).regs = s.regs := rfl
@[simp] theorem State.setPc_pc (s : State) (t : Word) : (s.setPc t).pc = t := rfl
@[simp] theorem State.setPc_mem (s : State) (t : Word) : (s.setPc t).mem = s.mem := rfl
@[simp] theorem State.setPc_out (s : State) (t : Word) : (s.setPc t).out = s.out := rfl
@[simp] theorem State.setPc_status (s : State) (t : Word) : (s.setPc t).status = s.status := rfl
@[simp] theorem State.setPc_cfg (s : State) (t : Word) : (s.setPc t).cfg = s.cfg := rfl

@[simp] theorem State.memWrite_regs (s : State) (a : Word) (w : AccessWidth) (v : Word) : (s.memWrite a w v).regs = s.regs := rfl
@[simp] theorem State.memWrite_pc (s : State) (a : Word) (w : AccessWidth) (v : Word) : (s.memWrite a w v).pc = s.pc := rfl
@[simp] theorem State.memWrite_mem (s : State) (a : Word) (w : AccessWidth) (v : Word) : (s.memWrite a w v).mem = s.mem.writeBytes (uint a) (lowBytes w.bytes v) := rfl
@[simp] theorem State.memWrite_out (s : State) (a : Word) (w : AccessWidth) (v : Word) : (s.memWrite a w v).out = s.out := rfl
@[simp] theorem State.memWrite_status (s : State) (a : Word) (w : AccessWidth) (v : Word) : (s.memWrite a w v).status = s.status := rfl
@[simp] theorem State.memWrite_cfg (s : State) (a : Word) (w : AccessWidth) (v : Word) : (s.memWrite a w v).cfg = s.cfg := rfl

@[simp] theorem State.emit_regs (s : State) (items : List OutItem) : (s.emit items).regs = s.regs := rfl
@[simp] theorem State.emit_pc (s : State) (items : List OutItem) : (s.emit items).pc = s.pc := rfl
@[simp] theorem State.emit_mem (s : State) (items : List OutItem) : (s.emit items).mem = s.mem := rfl
@[simp] theorem State.emit_out (s : State) (items : List OutItem) : (s.emit items).out = s.out ++ items := rfl
@[simp] theorem State.emit_status (s : State) (items : List OutItem) : (s.emit items).status = s.status := rfl
@[simp] theorem State.emit_cfg (s : State) (items : List OutItem) : (s.emit items).cfg = s.cfg := rfl

@[simp] theorem State.haltWith_regs (s : State) (reason : HaltReason) : (s.haltWith reason).regs = s.regs := rfl
@[simp] theorem State.haltWith_pc (s : State) (reason : HaltReason) : (s.haltWith reason).pc = s.pc := rfl
@[simp] theorem State.haltWith_mem (s : State) (reason : HaltReason) : (s.haltWith reason).mem = s.mem := rfl
@[simp] theorem State.haltWith_out (s : State) (reason : HaltReason) : (s.haltWith reason).out = s.out := rfl
@[simp] theorem State.haltWith_status (s : State) (reason : HaltReason) : (s.haltWith reason).status = .halted reason := rfl
@[simp] theorem State.haltWith_cfg (s : State) (reason : HaltReason) : (s.haltWith reason).cfg = s.cfg := rfl

@[simp] theorem State.advance_regs (s : State) : s.advance.regs = s.regs := rfl
@[simp] theorem State.advance_pc (s : State) : s.advance.pc = s.pc + 4 := rfl
@[simp] theorem State.advance_mem (s : State) : s.advance.mem = s.mem := rfl
@[simp] theorem State.advance_out (s : State) : s.advance.out = s.out := rfl
@[simp] theorem State.advance_status (s : State) : s.advance.status = s.status := rfl
@[simp] theorem State.advance_cfg (s : State) : s.advance.cfg = s.cfg := rfl

/-! ## Registers -/

@[simp] theorem State.getReg_setPc (s : State) (t : Word) (r' : RegIdx) : (s.setPc t).getReg r' = s.getReg r' := rfl
@[simp] theorem State.getReg_memWrite (s : State) (a : Word) (w : AccessWidth) (v : Word) (r' : RegIdx) : (s.memWrite a w v).getReg r' = s.getReg r' := rfl
@[simp] theorem State.getReg_emit (s : State) (items : List OutItem) (r' : RegIdx) : (s.emit items).getReg r' = s.getReg r' := rfl
@[simp] theorem State.getReg_haltWith (s : State) (reason : HaltReason) (r' : RegIdx) : (s.haltWith reason).getReg r' = s.getReg r' := rfl
@[simp] theorem State.getReg_advance (s : State) (r' : RegIdx) : s.advance.getReg r' = s.getReg r' := rfl

@[simp] theorem State.getReg_setReg_self (s : State) (r : RegIdx) (v : Word) : (s.setReg r v).getReg r = v := by
  simp [State.getReg, State.setReg]

theorem State.getReg_setReg_ne (s : State) {r r' : RegIdx} (v : Word) (h : r' ≠ r) :
    (s.setReg r v).getReg r' = s.getReg r' := by
  have h' : r.val ≠ r'.val := fun e => h (Fin.ext e.symm)
  simp [State.getReg, State.setReg, h']

theorem State.getReg_setReg (s : State) (r r' : RegIdx) (v : Word) :
    (s.setReg r v).getReg r' = if r' = r then v else s.getReg r' := by
  split
  · next h => subst h; exact s.getReg_setReg_self r' v
  · next h => exact s.getReg_setReg_ne v h

/-- Two register files that every index reads alike are the same. -/
theorem State.regs_eq_of_getReg_eq {s t : State} (h : ∀ r, s.getReg r = t.getReg r) : s.regs = t.regs := by
  refine Vector.ext fun i hi => ?_
  have := h ⟨i, hi⟩
  simpa [State.getReg] using this

/-! ## Reset -/

@[simp] theorem State.resetWith_pc (c : Config) (image : Memory) : (State.resetWith c image).pc = c.entry := rfl
@[simp] theorem State.resetWith_mem (c : Config) (image : Memory) : (State.resetWith c image).mem = image := rfl
@[simp] theorem State.resetWith_out (c : Config) (image : Memory) : (State.resetWith c image).out = [] := rfl
@[simp] theorem State.resetWith_status (c : Config) (image : Memory) : (State.resetWith c image).status = .running := rfl
@[simp] theorem State.resetWith_cfg (c : Config) (image : Memory) : (State.resetWith c image).cfg = c := rfl

end Sys2Proof.Machine
end

