-- ==== Sys2Proof/Laws/Ops.lean ====
section
/-! SUPPORT. One lemma per shared operation that says everything it can do, and the inversion of `exec` and `step`. -/

namespace Sys2Proof.Machine

/-! ## Multi-byte values -/

theorem wrap32_toNat (i : Int) : (uint (wrap32 i) : Int) = i % 2 ^ 32 := by
  simp only [uint, wrap32, BitVec.toNat_ofInt]
  have : (0 : Int) ≤ i % ((2 ^ 32 : Nat) : Int) := Int.emod_nonneg _ (by decide)
  rw [Int.toNat_of_nonneg this]
  norm_num

theorem valueOfBytes_lt (bs : List Byte) : valueOfBytes bs < 256 ^ bs.length := by
  induction bs with
  | nil => simp [valueOfBytes]
  | cons b rest ih =>
    have := b.isLt
    simp only [valueOfBytes, List.length_cons, pow_succ]
    omega

/-- A word access reads its four bytes, the lowest address least significant. -/
theorem State.memRead_word (s : State) (a : Word) :
    s.memRead a .word =
      s.mem.read (uint a + 3) ++ s.mem.read (uint a + 2) ++ s.mem.read (uint a + 1) ++ s.mem.read (uint a) := by
  apply BitVec.eq_of_toNat_eq
  generalize e0 : s.mem.read (uint a) = b0
  generalize e1 : s.mem.read (uint a + 1) = b1
  generalize e2 : s.mem.read (uint a + 2) = b2
  generalize e3 : s.mem.read (uint a + 3) = b3
  have h0 := b0.isLt
  have h1 := b1.isLt
  have h2 := b2.isLt
  have h3 := b3.isLt
  have : (b3 ++ b2 ++ b1 ++ b0).toNat = b0.toNat + 256 * (b1.toNat + 256 * (b2.toNat + 256 * b3.toNat)) := by
    simp only [BitVec.toNat_append, Nat.shiftLeft_eq]
    rw [Nat.mul_comm _ (2 ^ 8), Nat.mul_comm _ (2 ^ 8), Nat.mul_comm _ (2 ^ 8), ← Nat.two_pow_add_eq_or_of_lt h0,
      ← Nat.two_pow_add_eq_or_of_lt h1, ← Nat.two_pow_add_eq_or_of_lt h2]
    omega
  simp only [State.memRead, AccessWidth.bytes, Memory.readBytes, valueOfBytes, BitVec.toNat_ofNat, Nat.add_assoc,
    Nat.reduceAdd, e0, e1, e2, e3]
  rw [this]
  omega

/-- A half-word access reads its two bytes. -/
theorem State.memRead_half (s : State) (a : Word) :
    s.memRead a .half = (s.mem.read (uint a + 1) ++ s.mem.read (uint a)).setWidth 32 := by
  apply BitVec.eq_of_toNat_eq
  have h0 := (s.mem.read (uint a)).isLt
  have h1 := (s.mem.read (uint a + 1)).isLt
  simp only [State.memRead, AccessWidth.bytes, Memory.readBytes, valueOfBytes, BitVec.toNat_ofNat, BitVec.toNat_append,
    BitVec.toNat_setWidth, Nat.shiftLeft_eq]
  simp only [uint] at *
  rw [Nat.mul_comm _ (2 ^ 8), ← Nat.two_pow_add_eq_or_of_lt h0]
  omega

/-- A byte access reads its byte. -/
theorem State.memRead_byte (s : State) (a : Word) : s.memRead a .byte = (s.mem.read (uint a)).setWidth 32 := by
  apply BitVec.eq_of_toNat_eq
  simp [State.memRead, AccessWidth.bytes, Memory.readBytes, valueOfBytes]

/-- The `k`-th byte stored is the `k`-th byte of the word. -/
theorem getElem_lowBytes (n : Nat) (v : Word) (k : Nat) (h : k < (lowBytes n v).length) :
    (lowBytes n v)[k] = v.extractLsb' (8 * k) 8 := by
  induction n generalizing v k with
  | zero => simp [lowBytes] at h
  | succ n ih =>
    cases k with
    | zero =>
      apply BitVec.eq_of_getLsbD_eq
      intro i hi
      simp [lowBytes, hi]
    | succ k =>
      simp only [lowBytes, List.getElem_cons_succ]
      rw [ih]
      apply BitVec.eq_of_getLsbD_eq
      intro i hi
      simp only [BitVec.getLsbD_extractLsb', BitVec.getLsbD_ushiftRight, hi, decide_true, Bool.true_and]
      congr 1
      omega

/-- What memory holds after a store: the stored bytes, and every other byte as before. -/
theorem State.memWrite_read (s : State) (a : Word) (w : AccessWidth) (v : Word) (b : Nat) :
    (s.memWrite a w v).mem.read b =
      if uint a ≤ b ∧ b < uint a + w.bytes then v.extractLsb' (8 * (b - uint a)) 8 else s.mem.read b := by
  rw [State.memWrite_mem, Memory.read_writeBytes]
  simp only [length_lowBytes]
  split
  · exact getElem_lowBytes _ _ _ _
  · rfl

/-! ## Accesses, halts and the fetch -/

theorem State.inbounds_iff (s : State) (a : Word) (w : AccessWidth) :
    s.inbounds a w = true ↔ uint a + w.bytes ≤ s.cfg.memorySpace := by
  simp [State.inbounds]

/-- A load completes exactly in bounds; otherwise it raises MemoryFault. -/
theorem State.load_cases (s : State) (rd : RegIdx) (a : Word) (w : AccessWidth) (extend : Word → Word) :
    (uint a + w.bytes ≤ s.cfg.memorySpace ∧
        s.load rd a w extend = .next (s.setReg rd (extend (s.memRead a w))).advance) ∨
      (s.cfg.memorySpace < uint a + w.bytes ∧ s.load rd a w extend = .next (s.haltWith (.memoryFault a w .load))) := by
  by_cases h : uint a + w.bytes ≤ s.cfg.memorySpace
  · exact .inl ⟨h, by rw [State.load, if_pos ((s.inbounds_iff a w).2 h)]; rfl⟩
  · exact .inr ⟨by omega, by rw [State.load, if_neg (mt (s.inbounds_iff a w).1 h)]⟩

/-- A store completes exactly in bounds; otherwise it raises MemoryFault. -/
theorem State.store_cases (s : State) (a : Word) (w : AccessWidth) (v : Word) :
    (uint a + w.bytes ≤ s.cfg.memorySpace ∧ s.store a w v = .next (s.memWrite a w v).advance) ∨
      (s.cfg.memorySpace < uint a + w.bytes ∧ s.store a w v = .next (s.haltWith (.memoryFault a w .store))) := by
  by_cases h : uint a + w.bytes ≤ s.cfg.memorySpace
  · exact .inl ⟨h, by rw [State.store, if_pos ((s.inbounds_iff a w).2 h)]⟩
  · exact .inr ⟨by omega, by rw [State.store, if_neg (mt (s.inbounds_iff a w).1 h)]⟩

/-- The fetch gives the word at pc, or FetchFault. -/
theorem State.fetch_eq (s : State) :
    s.fetch = if uint s.pc + 4 ≤ s.cfg.memorySpace then .ok s.wordAtPc else .error (.fetchFault s.pc) := by
  unfold State.fetch
  rw [State.memRead_word]
  by_cases h : uint s.pc + 4 ≤ s.cfg.memorySpace
  · rw [if_pos ((s.inbounds_iff s.pc .word).2 h), if_pos h]; rfl
  · rw [if_neg (mt (s.inbounds_iff s.pc .word).1 h), if_neg h]

/-- The entry point runs the instruction of the word, or halts with the word. -/
theorem executeWord_cases (w : Word) (s : State) :
    (∃ i, decodeWord s.cfg.macOpcode w = .ok i ∧ executeWord w s = exec i s) ∨
      ((∃ e, decodeWord s.cfg.macOpcode w = .error e) ∧
        executeWord w s = .next (s.haltWith (.invalidInstruction w))) := by
  unfold executeWord
  cases hd : decodeWord s.cfg.macOpcode w with
  | ok i => exact .inl ⟨i, rfl, rfl⟩
  | error e => exact .inr ⟨⟨e, rfl⟩, rfl⟩

/-! ## Inversion -/

/-- Everything an instruction can do. -/
inductive ExecShape (i : Instr) (s : State) : State → Prop where
  /-- It writes its destination register and advances. -/
  | writes (rd : RegIdx) (v : Word) (h : destReg i = some rd) : ExecShape i s (s.setReg rd v).advance
  /-- It links and jumps. -/
  | jumps (rd : RegIdx) (offset : BitVec 21) (h : i = .jal rd offset) :
      ExecShape i s ((s.setReg rd (s.pc + 4)).setPc (s.pc + immJ offset))
  /-- A branch is taken. -/
  | branches (rs1 rs2 : RegIdx) (offset : BitVec 13) (h : i = .beq rs1 rs2 offset ∨ i = .bne rs1 rs2 offset) :
      ExecShape i s (s.setPc (s.pc + immB offset))
  /-- A branch is not taken. -/
  | falls (rs1 rs2 : RegIdx) (offset : BitVec 13) (h : i = .beq rs1 rs2 offset ∨ i = .bne rs1 rs2 offset) :
      ExecShape i s s.advance
  /-- It stores in bounds and advances. -/
  | stores (ea : Word) (w : AccessWidth) (v : Word) (h : dataAccess s i = some (ea, w, .store))
      (hb : uint ea + w.bytes ≤ s.cfg.memorySpace) : ExecShape i s (s.memWrite ea w v).advance
  /-- Its access is out of bounds. -/
  | faults (ea : Word) (w : AccessWidth) (k : AccessKind) (h : dataAccess s i = some (ea, w, k))
      (hb : s.cfg.memorySpace < uint ea + w.bytes) : ExecShape i s (s.haltWith (.memoryFault ea w k))
  /-- The system call prints and advances. -/
  | prints (b : BitVec 25) (items : List OutItem) (h : i = .ecall b)
      (hc : s.getReg a0 = 1 ∨ s.getReg a0 = 4 ∨ s.getReg a0 = 11) : ExecShape i s (s.emit items).advance
  /-- The system call exits. -/
  | exits (b : BitVec 25) (h : i = .ecall b) (hc : s.getReg a0 = 10) :
      ExecShape i s ((s.emit [.exitBanner]).haltWith .exit)
  /-- The service code is illegal. -/
  | illegal (b : BitVec 25) (h : i = .ecall b)
      (hc : s.getReg a0 ≠ 1 ∧ s.getReg a0 ≠ 4 ∧ s.getReg a0 ≠ 10 ∧ s.getReg a0 ≠ 11) :
      ExecShape i s (s.haltWith (.illegalServiceCall (s.getReg a0)))

theorem ExecShape.of_load {i : Instr} {s : State} {rd : RegIdx} {a : Word} {w : AccessWidth} (extend : Word → Word)
    (hd : destReg i = some rd) (ha : dataAccess s i = some (a, w, .load)) :
    ∃ t, s.load rd a w extend = .next t ∧ ExecShape i s t := by
  rcases s.load_cases rd a w extend with ⟨_, h⟩ | ⟨hb, h⟩
  · exact ⟨_, h, .writes rd _ hd⟩
  · exact ⟨_, h, .faults a w .load ha hb⟩

theorem ExecShape.of_store {i : Instr} {s : State} {a : Word} {w : AccessWidth} (v : Word)
    (ha : dataAccess s i = some (a, w, .store)) : ∃ t, s.store a w v = .next t ∧ ExecShape i s t := by
  rcases s.store_cases a w v with ⟨hb, h⟩ | ⟨hb, h⟩
  · exact ⟨_, h, .stores a w v ha hb⟩
  · exact ⟨_, h, .faults a w .store ha hb⟩

/-- Every instruction answers a next state, of one of the shapes. -/
theorem exec_shape (i : Instr) (s : State) : ∃ t, exec i s = .next t ∧ ExecShape i s t := by
  cases i with
  | lb rd rs1 imm => exact ExecShape.of_load _ rfl rfl
  | lh rd rs1 imm => exact ExecShape.of_load _ rfl rfl
  | lw rd rs1 imm => exact ExecShape.of_load _ rfl rfl
  | sb rs1 rs2 imm => exact ExecShape.of_store _ rfl
  | sh rs1 rs2 imm => exact ExecShape.of_store _ rfl
  | sw rs1 rs2 imm => exact ExecShape.of_store _ rfl
  | beq rs1 rs2 offset =>
    refine ⟨_, rfl, ?_⟩
    split
    · exact .branches rs1 rs2 offset (.inl rfl)
    · exact .falls rs1 rs2 offset (.inl rfl)
  | bne rs1 rs2 offset =>
    refine ⟨_, rfl, ?_⟩
    split
    · exact .falls rs1 rs2 offset (.inr rfl)
    · exact .branches rs1 rs2 offset (.inr rfl)
  | jal rd offset => exact ⟨_, rfl, .jumps rd offset rfl⟩
  | ecall b =>
    simp only [exec, execEcall]
    split
    · next h => exact ⟨_, rfl, .prints b _ rfl (.inl h)⟩
    split
    · next h => exact ⟨_, rfl, .prints b _ rfl (.inr (.inl h))⟩
    split
    · next h => exact ⟨_, rfl, .exits b rfl h⟩
    split
    · next h => exact ⟨_, rfl, .prints b _ rfl (.inr (.inr h))⟩
    · next h1 h4 h10 h11 => exact ⟨_, rfl, .illegal b rfl ⟨h1, h4, h10, h11⟩⟩
  | _ => exact ⟨_, rfl, .writes _ _ rfl⟩

/-- A next state of an instruction has one of the shapes. -/
theorem exec_cases {i : Instr} {s t : State} (h : exec i s = .next t) : ExecShape i s t := by
  obtain ⟨u, hu, hs⟩ := exec_shape i s
  rw [hu] at h
  cases h
  exact hs

/-- Everything a running core's step can do. -/
theorem step_running {s : State} (hr : s.status = .running) :
    (s.cfg.memorySpace < uint s.pc + 4 ∧ step s = .next (s.haltWith (.fetchFault s.pc))) ∨
      (uint s.pc + 4 ≤ s.cfg.memorySpace ∧ (∃ e, decodeWord s.cfg.macOpcode s.wordAtPc = .error e) ∧
        step s = .next (s.haltWith (.invalidInstruction s.wordAtPc))) ∨
      ∃ i, s.AboutToRun i ∧ step s = exec i s := by
  unfold step
  rw [hr, State.fetch_eq]
  by_cases h : uint s.pc + 4 ≤ s.cfg.memorySpace
  · rw [if_pos h]
    rcases executeWord_cases s.wordAtPc s with ⟨i, hd, he⟩ | ⟨he, hh⟩
    · exact .inr (.inr ⟨i, ⟨hr, h, hd⟩, he⟩)
    · exact .inr (.inl ⟨h, he, hh⟩)
  · rw [if_neg h]
    exact .inl ⟨by omega, rfl⟩

/-- A step that answers a next state starts in a running core. -/
theorem step_next_running {s t : State} (h : step s = .next t) : s.status = .running := by
  cases hs : s.status with
  | running => rfl
  | halted reason => simp [step, hs] at h

end Sys2Proof.Machine
end

