-- ==== Sys2Proof/Laws/Alu.lean ====
section
/-! SUPPORT. What the arithmetic, the shifts, the comparisons and the operand forms give, one lemma each, and what the
end of an instruction leaves. -/

namespace Sys2Proof.Machine

/-! ## Integers and words -/

theorem wrap32_natCast (n : Nat) : wrap32 (n : Int) = BitVec.ofNat 32 n := by simp [wrap32]

theorem uint_emod_eq_sint_emod (v : Word) : (uint v : Int) % 2 ^ 32 = sint v % 2 ^ 32 := by
  rw [sint, BitVec.toInt_eq_toNat_bmod]
  exact (Int.bmod_emod ..).symm

/-- `wrap32` of a value in the signed range reads back as that value. -/
theorem sint_wrap32 {i : Int} (hlo : -2 ^ 31 ≤ i) (hhi : i < 2 ^ 31) : sint (wrap32 i) = i := by
  rw [sint, wrap32, BitVec.toInt_ofInt, Int.bmod_eq_of_le (by omega) (by omega)]

theorem sint_bounds (v : Word) : -2 ^ 31 ≤ sint v ∧ sint v < 2 ^ 31 :=
  ⟨BitVec.le_toInt v, BitVec.toInt_lt⟩

/-! ## Sums and products -/

theorem addWords_toNat (a b : Word) : (uint (addWords a b) : Int) = (uint a + uint b) % 2 ^ 32 := wrap32_toNat _
theorem subWords_toNat (a b : Word) : (uint (subWords a b) : Int) = (uint a - uint b) % 2 ^ 32 := wrap32_toNat _
theorem mulLow_toNat (a b : Word) : (uint (mulLow a b) : Int) = sint a * sint b % 2 ^ 32 := wrap32_toNat _
theorem mulAccumulate_toNat (acc a b : Word) :
    (uint (mulAccumulate acc a b) : Int) = (uint acc + sint a * sint b) % 2 ^ 32 := wrap32_toNat _

/-- The high word of a product, which always fits. -/
theorem mulHigh_toInt (a b : Word) : sint (mulHigh a b) = sint a * sint b / 2 ^ 32 := by
  obtain ⟨a1, a2⟩ := sint_bounds a
  obtain ⟨b1, b2⟩ := sint_bounds b
  unfold mulHigh
  generalize sint a = x at *
  generalize sint b = y at *
  have hu : x * y ≤ 2 ^ 31 * 2 ^ 31 := by nlinarith
  have hl : -(2 ^ 31 * 2 ^ 31) ≤ x * y := by nlinarith
  exact sint_wrap32 (by omega) (by omega)

/-! ## Shifts, bit by bit -/

theorem shl_bit (v : Word) (n k : Nat) (hk : k < 32) :
    (shl v n).getLsbD k = (decide (n ≤ k) && v.getLsbD (k - n)) := by
  unfold shl
  split
  · have : ¬ n ≤ k := by omega
    simp [this]
  · have : wrap32 ((uint v : Int) * 2 ^ n) = BitVec.ofNat 32 (v.toNat <<< n) := by
      rw [← wrap32_natCast, Nat.shiftLeft_eq]; push_cast; rfl
    rw [this, BitVec.getLsbD_ofNat, Nat.testBit_shiftLeft]
    simp [hk, BitVec.getLsbD]

theorem shr_bit (v : Word) (n k : Nat) (hk : k < 32) : (shr v n).getLsbD k = v.getLsbD (k + n) := by
  unfold shr
  split
  · rw [BitVec.getLsbD_of_ge v _ (by omega)]; simp
  · have : wrap32 ((uint v : Int) / 2 ^ n) = BitVec.ofNat 32 (v.toNat >>> n) := by
      rw [← wrap32_natCast, Nat.shiftRight_eq_div_pow]; push_cast; rfl
    rw [this, BitVec.getLsbD_ofNat, Nat.testBit_shiftRight]
    simp [hk, BitVec.getLsbD, Nat.add_comm]

theorem sar_eq_sshiftRight (v : Word) (n : Nat) : sar v n = v.sshiftRight n := by
  unfold sar
  split
  · apply BitVec.eq_of_getLsbD_eq
    intro k hk
    rw [BitVec.getLsbD_sshiftRight, BitVec.msb_eq_getLsbD_last]
    have h1 : ¬ n + k < 32 := by omega
    have h2 : ¬ 32 ≤ k := by omega
    cases v.getLsbD 31
    · simp [h1]
    · have : (0xFFFFFFFF : Word) = BitVec.allOnes 32 := rfl
      rw [if_pos rfl, this, BitVec.getLsbD_allOnes]
      simp [h1, h2, hk]
  · rw [BitVec.sshiftRight]
    simp [wrap32, Int.shiftRight_eq_div_pow]

theorem sar_bit (v : Word) (n k : Nat) (hk : k < 32) : (sar v n).getLsbD k = v.getLsbD (min (k + n) 31) := by
  rw [sar_eq_sshiftRight, BitVec.getLsbD_sshiftRight, BitVec.msb_eq_getLsbD_last]
  have : ¬ 32 ≤ k := by omega
  simp only [this, decide_false, Bool.not_false, Bool.true_and]
  split
  · rw [min_eq_left (by omega), Nat.add_comm]
  · rw [min_eq_right (by omega)]

/-! ## Division -/

/-- The quotient rounded toward zero, where the spec gives neither of its two special cases. -/
theorem divs_toInt {a b : Int} (hlo : -2 ^ 31 ≤ a) (hhi : a < 2 ^ 31) (h0 : b ≠ 0) (ho : ¬ (a = -2 ^ 31 ∧ b = -1)) :
    sint (divs a b) = a.tdiv b := by
  unfold divs
  rw [if_neg h0, if_neg ho]
  have hle := Int.natAbs_tdiv_le_natAbs a b
  have heq := Int.mul_tdiv_add_tmod a b
  have hmod : (a.tmod b).natAbs < b.natAbs := by rw [Int.natAbs_tmod]; exact Nat.mod_lt _ (by omega)
  refine sint_wrap32 (by omega) ?_
  by_contra hq
  have hq : a.tdiv b = 2 ^ 31 := by omega
  rw [hq] at heq
  omega

/-- The remainder of that division. -/
theorem rems_toInt {a b : Int} (hlo : -2 ^ 31 ≤ b) (hhi : b < 2 ^ 31) (h0 : b ≠ 0) (ho : ¬ (a = -2 ^ 31 ∧ b = -1)) :
    sint (rems a b) = a.tmod b := by
  unfold rems
  rw [if_neg h0, if_neg ho]
  have heq := Int.mul_tdiv_add_tmod a b
  have hmod : (a.tmod b).natAbs < b.natAbs := by rw [Int.natAbs_tmod]; exact Nat.mod_lt _ (by omega)
  rw [show a - b * a.tdiv b = a.tmod b by omega]
  exact sint_wrap32 (by omega) (by omega)

/-! ## Comparisons -/

theorem equalLow16_eq (a b : Word) : equalLow16 a b = decide (uint a % 2 ^ 16 = uint b % 2 ^ 16) := by
  unfold equalLow16
  rw [beq_eq_decide]
  congr 1
  rw [← BitVec.toNat_inj]
  simp [BitVec.extractLsb'_toNat]

/-! ## Operand forms -/

theorem immI_toInt (imm : BitVec 12) : sint (immI imm) = imm.toInt := BitVec.toInt_signExtend_of_le (by decide)
theorem immS_toInt (imm : BitVec 12) : sint (immS imm) = imm.toInt := BitVec.toInt_signExtend_of_le (by decide)
theorem immB_toInt (offset : BitVec 13) : sint (immB offset) = offset.toInt :=
  BitVec.toInt_signExtend_of_le (by decide)
theorem immJ_toInt (offset : BitVec 21) : sint (immJ offset) = offset.toInt :=
  BitVec.toInt_signExtend_of_le (by decide)
theorem immU_toNat (imm : BitVec 20) : uint (immU imm) = imm.toNat * 2 ^ 12 := by
  simp only [immU, uint, BitVec.toNat_cast]
  rw [BitVec.toNat_append]
  simp [Nat.shiftLeft_eq]

theorem immI_bit (imm : BitVec 12) (k : Nat) (hk : k < 32) :
    (immI imm).getLsbD k = if k < 12 then imm.getLsbD k else imm.getLsbD 11 := by
  rw [immI, BitVec.getLsbD_signExtend, BitVec.msb_eq_getLsbD_last]
  simp [hk]

theorem sextLow_byte (b : Byte) : sint (sextLow 8 (b.setWidth 32)) = b.toInt := by
  simp only [sextLow, sint]
  rw [BitVec.toInt_signExtend_of_le (by decide)]
  congr 1
  simp

theorem sextLow_half (b : BitVec 16) : sint (sextLow 16 (b.setWidth 32)) = b.toInt := by
  simp only [sextLow, sint]
  rw [BitVec.toInt_signExtend_of_le (by decide)]
  congr 1
  simp

/-- A target is the integer sum of `pc` and the signed offset, wrapped. -/
theorem add_toNat_eq (pc offset : Word) : (uint (pc + offset) : Int) = (uint pc + sint offset) % 2 ^ 32 := by
  have h : (uint (pc + offset) : Int) = ((uint pc : Int) + uint offset) % 2 ^ 32 := by simp [uint, BitVec.toNat_add]
  rw [h, Int.add_emod, uint_emod_eq_sint_emod offset, ← Int.add_emod]

/-! ## Ends of instructions -/

/-- An instruction that ends in `writeBack` completes. -/
theorem CompletesWriting.of_writeBack {i : Instr} {s : State} {rd : RegIdx} {v : Word} {P : Word → Prop}
    (h : exec i s = s.writeBack rd v) (hp : P v) : CompletesWriting i s rd P :=
  ⟨_, h, by simpa using hp, rfl, fun r hr => by simp [State.getReg_setReg, hr], fun _ => rfl, rfl, rfl, rfl⟩

/-- An instruction that loads in bounds completes. -/
theorem CompletesWriting.of_load {i : Instr} {s : State} {rd : RegIdx} {a : Word} {w : AccessWidth}
    {extend : Word → Word} {P : Word → Prop} (h : exec i s = s.load rd a w extend)
    (hb : uint a + w.bytes ≤ s.cfg.memorySpace) (hp : P (extend (s.memRead a w))) : CompletesWriting i s rd P :=
  .of_writeBack (h.trans (by rw [State.load, if_pos ((s.inbounds_iff a w).2 hb)])) hp

/-- An instruction that stores in bounds completes. -/
theorem CompletesStoring.of_store {i : Instr} {s : State} {a : Word} {w : AccessWidth} {v : Word}
    (h : exec i s = s.store a w v) (hb : uint a + w.bytes ≤ s.cfg.memorySpace) : CompletesStoring i s a w.bytes v := by
  refine ⟨(s.memWrite a w v).advance, h.trans (by rw [State.store, if_pos ((s.inbounds_iff a w).2 hb)]),
    fun k hk => ?_, fun b hb' => ?_, fun _ => rfl, rfl, rfl, rfl, rfl⟩
  · rw [State.advance_mem, State.memWrite_read, if_pos (by omega), Nat.add_sub_cancel_left]
  · rw [State.advance_mem, State.memWrite_read, if_neg (by omega)]

theorem keepsRegistersAndMemory_setPc (s : State) (t : Word) : KeepsRegistersAndMemory s (s.setPc t) :=
  ⟨fun _ => rfl, fun _ => rfl, rfl⟩

end Sys2Proof.Machine
end

