-- ==== Sys2Proof/Laws/Decode.lean ====
section
/-! SUPPORT. The fields of the words that the encoder's layouts build, and what the decoder makes of each layout. -/

namespace Sys2Proof

@[simp] theorem regOf_regBits (r : RegIdx) : regOf (regBits r) = r := by
  have := r.isLt
  apply Fin.ext
  simp only [regOf, regBits, BitVec.toNat_ofNat]
  omega

@[simp] theorem regBits_regOf (b : BitVec 5) : regBits (regOf b) = b := by
  simp [regOf, regBits]

/-- A register field is the register whose bits it holds. -/
theorem regOf_eq_of_bits {b : BitVec 5} {r : RegIdx} (h : b = regBits r) : regOf b = r := by
  rw [h, regOf_regBits]

/-! ## The R layout -/

@[simp] theorem opcodeField_wordR (f7 : BitVec 7) (rs2 rs1 : RegIdx) (f3 : BitVec 3) (rd : RegIdx) (op : BitVec 7) :
    opcodeField (wordR f7 rs2 rs1 f3 rd op) = op := by
  apply BitVec.eq_of_getLsbD_eq
  intro k hk
  simp only [opcodeField, wordR, BitVec.getLsbD_extractLsb', BitVec.getLsbD_cast, BitVec.getLsbD_append]
  grind

@[simp] theorem rdField_wordR (f7 : BitVec 7) (rs2 rs1 : RegIdx) (f3 : BitVec 3) (rd : RegIdx) (op : BitVec 7) :
    rdField (wordR f7 rs2 rs1 f3 rd op) = rd := by
  apply regOf_eq_of_bits
  apply BitVec.eq_of_getLsbD_eq
  intro k hk
  simp only [wordR, BitVec.getLsbD_extractLsb', BitVec.getLsbD_cast, BitVec.getLsbD_append]
  grind

@[simp] theorem funct3Field_wordR (f7 : BitVec 7) (rs2 rs1 : RegIdx) (f3 : BitVec 3) (rd : RegIdx) (op : BitVec 7) :
    funct3Field (wordR f7 rs2 rs1 f3 rd op) = f3 := by
  apply BitVec.eq_of_getLsbD_eq
  intro k hk
  simp only [funct3Field, wordR, BitVec.getLsbD_extractLsb', BitVec.getLsbD_cast, BitVec.getLsbD_append]
  grind

@[simp] theorem rs1Field_wordR (f7 : BitVec 7) (rs2 rs1 : RegIdx) (f3 : BitVec 3) (rd : RegIdx) (op : BitVec 7) :
    rs1Field (wordR f7 rs2 rs1 f3 rd op) = rs1 := by
  apply regOf_eq_of_bits
  apply BitVec.eq_of_getLsbD_eq
  intro k hk
  simp only [wordR, BitVec.getLsbD_extractLsb', BitVec.getLsbD_cast, BitVec.getLsbD_append]
  grind

@[simp] theorem rs2Field_wordR (f7 : BitVec 7) (rs2 rs1 : RegIdx) (f3 : BitVec 3) (rd : RegIdx) (op : BitVec 7) :
    rs2Field (wordR f7 rs2 rs1 f3 rd op) = rs2 := by
  apply regOf_eq_of_bits
  apply BitVec.eq_of_getLsbD_eq
  intro k hk
  simp only [wordR, BitVec.getLsbD_extractLsb', BitVec.getLsbD_cast, BitVec.getLsbD_append]
  grind

@[simp] theorem funct7Field_wordR (f7 : BitVec 7) (rs2 rs1 : RegIdx) (f3 : BitVec 3) (rd : RegIdx) (op : BitVec 7) :
    funct7Field (wordR f7 rs2 rs1 f3 rd op) = f7 := by
  apply BitVec.eq_of_getLsbD_eq
  intro k hk
  simp only [funct7Field, wordR, BitVec.getLsbD_extractLsb', BitVec.getLsbD_cast, BitVec.getLsbD_append]
  grind

/-! ## The I layout -/

@[simp] theorem opcodeField_wordI (imm : BitVec 12) (rs1 : RegIdx) (f3 : BitVec 3) (rd : RegIdx) (op : BitVec 7) :
    opcodeField (wordI imm rs1 f3 rd op) = op := by
  apply BitVec.eq_of_getLsbD_eq
  intro k hk
  simp only [opcodeField, wordI, BitVec.getLsbD_extractLsb', BitVec.getLsbD_cast, BitVec.getLsbD_append]
  grind

@[simp] theorem rdField_wordI (imm : BitVec 12) (rs1 : RegIdx) (f3 : BitVec 3) (rd : RegIdx) (op : BitVec 7) :
    rdField (wordI imm rs1 f3 rd op) = rd := by
  apply regOf_eq_of_bits
  apply BitVec.eq_of_getLsbD_eq
  intro k hk
  simp only [wordI, BitVec.getLsbD_extractLsb', BitVec.getLsbD_cast, BitVec.getLsbD_append]
  grind

@[simp] theorem funct3Field_wordI (imm : BitVec 12) (rs1 : RegIdx) (f3 : BitVec 3) (rd : RegIdx) (op : BitVec 7) :
    funct3Field (wordI imm rs1 f3 rd op) = f3 := by
  apply BitVec.eq_of_getLsbD_eq
  intro k hk
  simp only [funct3Field, wordI, BitVec.getLsbD_extractLsb', BitVec.getLsbD_cast, BitVec.getLsbD_append]
  grind

@[simp] theorem rs1Field_wordI (imm : BitVec 12) (rs1 : RegIdx) (f3 : BitVec 3) (rd : RegIdx) (op : BitVec 7) :
    rs1Field (wordI imm rs1 f3 rd op) = rs1 := by
  apply regOf_eq_of_bits
  apply BitVec.eq_of_getLsbD_eq
  intro k hk
  simp only [wordI, BitVec.getLsbD_extractLsb', BitVec.getLsbD_cast, BitVec.getLsbD_append]
  grind

@[simp] theorem immIField_wordI (imm : BitVec 12) (rs1 : RegIdx) (f3 : BitVec 3) (rd : RegIdx) (op : BitVec 7) :
    immIField (wordI imm rs1 f3 rd op) = imm := by
  apply BitVec.eq_of_getLsbD_eq
  intro k hk
  simp only [immIField, wordI, BitVec.getLsbD_extractLsb', BitVec.getLsbD_cast, BitVec.getLsbD_append]
  grind

/-! ## The S layout -/

@[simp] theorem opcodeField_wordS (imm : BitVec 12) (rs2 rs1 : RegIdx) (f3 : BitVec 3) (op : BitVec 7) :
    opcodeField (wordS imm rs2 rs1 f3 op) = op := by
  apply BitVec.eq_of_getLsbD_eq
  intro k hk
  simp only [opcodeField, wordS, BitVec.getLsbD_extractLsb', BitVec.getLsbD_cast, BitVec.getLsbD_append]
  grind

@[simp] theorem funct3Field_wordS (imm : BitVec 12) (rs2 rs1 : RegIdx) (f3 : BitVec 3) (op : BitVec 7) :
    funct3Field (wordS imm rs2 rs1 f3 op) = f3 := by
  apply BitVec.eq_of_getLsbD_eq
  intro k hk
  simp only [funct3Field, wordS, BitVec.getLsbD_extractLsb', BitVec.getLsbD_cast, BitVec.getLsbD_append]
  grind

@[simp] theorem rs1Field_wordS (imm : BitVec 12) (rs2 rs1 : RegIdx) (f3 : BitVec 3) (op : BitVec 7) :
    rs1Field (wordS imm rs2 rs1 f3 op) = rs1 := by
  apply regOf_eq_of_bits
  apply BitVec.eq_of_getLsbD_eq
  intro k hk
  simp only [wordS, BitVec.getLsbD_extractLsb', BitVec.getLsbD_cast, BitVec.getLsbD_append]
  grind

@[simp] theorem rs2Field_wordS (imm : BitVec 12) (rs2 rs1 : RegIdx) (f3 : BitVec 3) (op : BitVec 7) :
    rs2Field (wordS imm rs2 rs1 f3 op) = rs2 := by
  apply regOf_eq_of_bits
  apply BitVec.eq_of_getLsbD_eq
  intro k hk
  simp only [wordS, BitVec.getLsbD_extractLsb', BitVec.getLsbD_cast, BitVec.getLsbD_append]
  grind

@[simp] theorem immSField_wordS (imm : BitVec 12) (rs2 rs1 : RegIdx) (f3 : BitVec 3) (op : BitVec 7) :
    immSField (wordS imm rs2 rs1 f3 op) = imm := by
  apply BitVec.eq_of_getLsbD_eq
  intro k hk
  simp only [immSField, wordS, BitVec.getLsbD_extractLsb', BitVec.getLsbD_cast, BitVec.getLsbD_append]
  grind

/-! ## The B layout -/

@[simp] theorem opcodeField_wordB (imm : BitVec 13) (rs2 rs1 : RegIdx) (f3 : BitVec 3) (op : BitVec 7) :
    opcodeField (wordB imm rs2 rs1 f3 op) = op := by
  apply BitVec.eq_of_getLsbD_eq
  intro k hk
  simp only [opcodeField, wordB, BitVec.getLsbD_extractLsb', BitVec.getLsbD_cast, BitVec.getLsbD_append]
  grind

@[simp] theorem funct3Field_wordB (imm : BitVec 13) (rs2 rs1 : RegIdx) (f3 : BitVec 3) (op : BitVec 7) :
    funct3Field (wordB imm rs2 rs1 f3 op) = f3 := by
  apply BitVec.eq_of_getLsbD_eq
  intro k hk
  simp only [funct3Field, wordB, BitVec.getLsbD_extractLsb', BitVec.getLsbD_cast, BitVec.getLsbD_append]
  grind

@[simp] theorem rs1Field_wordB (imm : BitVec 13) (rs2 rs1 : RegIdx) (f3 : BitVec 3) (op : BitVec 7) :
    rs1Field (wordB imm rs2 rs1 f3 op) = rs1 := by
  apply regOf_eq_of_bits
  apply BitVec.eq_of_getLsbD_eq
  intro k hk
  simp only [wordB, BitVec.getLsbD_extractLsb', BitVec.getLsbD_cast, BitVec.getLsbD_append]
  grind

@[simp] theorem rs2Field_wordB (imm : BitVec 13) (rs2 rs1 : RegIdx) (f3 : BitVec 3) (op : BitVec 7) :
    rs2Field (wordB imm rs2 rs1 f3 op) = rs2 := by
  apply regOf_eq_of_bits
  apply BitVec.eq_of_getLsbD_eq
  intro k hk
  simp only [wordB, BitVec.getLsbD_extractLsb', BitVec.getLsbD_cast, BitVec.getLsbD_append]
  grind

@[simp] theorem immBField_wordB (imm : BitVec 13) (rs2 rs1 : RegIdx) (f3 : BitVec 3) (op : BitVec 7) (heven : imm.getLsbD 0 = false) :
    immBField (wordB imm rs2 rs1 f3 op) = imm := by
  apply BitVec.eq_of_getLsbD_eq
  intro k hk
  simp only [immBField, wordB, BitVec.getLsbD_extractLsb', BitVec.getLsbD_cast, BitVec.getLsbD_append]
  grind

/-! ## The U layout -/

@[simp] theorem opcodeField_wordU (imm : BitVec 20) (rd : RegIdx) (op : BitVec 7) :
    opcodeField (wordU imm rd op) = op := by
  apply BitVec.eq_of_getLsbD_eq
  intro k hk
  simp only [opcodeField, wordU, BitVec.getLsbD_extractLsb', BitVec.getLsbD_cast, BitVec.getLsbD_append]
  grind

@[simp] theorem rdField_wordU (imm : BitVec 20) (rd : RegIdx) (op : BitVec 7) :
    rdField (wordU imm rd op) = rd := by
  apply regOf_eq_of_bits
  apply BitVec.eq_of_getLsbD_eq
  intro k hk
  simp only [wordU, BitVec.getLsbD_extractLsb', BitVec.getLsbD_cast, BitVec.getLsbD_append]
  grind

@[simp] theorem immUField_wordU (imm : BitVec 20) (rd : RegIdx) (op : BitVec 7) :
    immUField (wordU imm rd op) = imm := by
  apply BitVec.eq_of_getLsbD_eq
  intro k hk
  simp only [immUField, wordU, BitVec.getLsbD_extractLsb', BitVec.getLsbD_cast, BitVec.getLsbD_append]
  grind

/-! ## The J layout -/

@[simp] theorem opcodeField_wordJ (imm : BitVec 21) (rd : RegIdx) (op : BitVec 7) :
    opcodeField (wordJ imm rd op) = op := by
  apply BitVec.eq_of_getLsbD_eq
  intro k hk
  simp only [opcodeField, wordJ, BitVec.getLsbD_extractLsb', BitVec.getLsbD_cast, BitVec.getLsbD_append]
  grind

@[simp] theorem rdField_wordJ (imm : BitVec 21) (rd : RegIdx) (op : BitVec 7) :
    rdField (wordJ imm rd op) = rd := by
  apply regOf_eq_of_bits
  apply BitVec.eq_of_getLsbD_eq
  intro k hk
  simp only [wordJ, BitVec.getLsbD_extractLsb', BitVec.getLsbD_cast, BitVec.getLsbD_append]
  grind

@[simp] theorem immJField_wordJ (imm : BitVec 21) (rd : RegIdx) (op : BitVec 7) (heven : imm.getLsbD 0 = false) :
    immJField (wordJ imm rd op) = imm := by
  apply BitVec.eq_of_getLsbD_eq
  intro k hk
  simp only [immJField, wordJ, BitVec.getLsbD_extractLsb', BitVec.getLsbD_cast, BitVec.getLsbD_append]
  grind

/-! ## What the decoder makes of each layout -/

theorem decodeWord_wordR {mac op : BitVec 7} (h : op = 0x33 ∨ op = mac) (f7 : BitVec 7) (rs2 rs1 : RegIdx)
    (f3 : BitVec 3) (rd : RegIdx) : decodeWord mac (wordR f7 rs2 rs1 f3 rd op) = selectR op rd rs1 rs2 f3 f7 := by
  simp only [decodeWord, decodeFields, opcodeField_wordR, rdField_wordR, rs1Field_wordR, rs2Field_wordR,
    funct3Field_wordR, funct7Field_wordR, if_pos h, select]

/-- What an alternate opcode outside the class opcodes differs from. -/
theorem ne_of_notMem_classOpcodes {mac : BitVec 7} (h : mac ∉ classOpcodes) :
    0x03#7 ≠ mac ∧ 0x13#7 ≠ mac ∧ 0x23#7 ≠ mac ∧ 0x33#7 ≠ mac ∧ 0x37#7 ≠ mac ∧ 0x63#7 ≠ mac ∧ 0x6F#7 ≠ mac ∧
      0x73#7 ≠ mac := by
  refine ⟨?_, ?_, ?_, ?_, ?_, ?_, ?_, ?_⟩ <;> rintro rfl <;> exact h (by decide)

theorem decodeWord_wordI_imm {mac : BitVec 7} (h : mac ∉ classOpcodes) (imm : BitVec 12) (rs1 : RegIdx)
    (f3 : BitVec 3) (rd : RegIdx) : decodeWord mac (wordI imm rs1 f3 rd 0x13) = selectImm rd rs1 f3 imm := by
  simp [decodeWord, decodeFields, select, ne_of_notMem_classOpcodes h]

theorem decodeWord_wordI_load {mac : BitVec 7} (h : mac ∉ classOpcodes) (imm : BitVec 12) (rs1 : RegIdx)
    (f3 : BitVec 3) (rd : RegIdx) : decodeWord mac (wordI imm rs1 f3 rd 0x03) = selectLoad rd rs1 f3 imm := by
  simp [decodeWord, decodeFields, select, ne_of_notMem_classOpcodes h]

theorem decodeWord_wordS {mac : BitVec 7} (h : mac ∉ classOpcodes) (imm : BitVec 12) (rs2 rs1 : RegIdx)
    (f3 : BitVec 3) : decodeWord mac (wordS imm rs2 rs1 f3 0x23) = selectStore rs1 rs2 f3 imm := by
  simp [decodeWord, decodeFields, select, ne_of_notMem_classOpcodes h]

theorem decodeWord_wordB {mac : BitVec 7} (h : mac ∉ classOpcodes) (imm : BitVec 13) (rs2 rs1 : RegIdx)
    (f3 : BitVec 3) (heven : imm.getLsbD 0 = false) :
    decodeWord mac (wordB imm rs2 rs1 f3 0x63) = selectBranch rs1 rs2 f3 imm := by
  simp [decodeWord, decodeFields, select, ne_of_notMem_classOpcodes h, immBField_wordB _ _ _ _ _ heven]

theorem decodeWord_wordU {mac : BitVec 7} (h : mac ∉ classOpcodes) (imm : BitVec 20) (rd : RegIdx) :
    decodeWord mac (wordU imm rd 0x37) = .ok (.lui rd imm) := by
  simp [decodeWord, decodeFields, select, ne_of_notMem_classOpcodes h]

theorem decodeWord_wordJ {mac : BitVec 7} (h : mac ∉ classOpcodes) (imm : BitVec 21) (rd : RegIdx)
    (heven : imm.getLsbD 0 = false) : decodeWord mac (wordJ imm rd 0x6F) = .ok (.jal rd imm) := by
  simp [decodeWord, decodeFields, select, ne_of_notMem_classOpcodes h, immJField_wordJ _ _ _ heven]

/-! ## Bytes -/

/-- A word's bytes put together are the word. -/
theorem wordOfBytes_bytesOfWord (w : Word) :
    wordOfBytes (w.extractLsb' 0 8) (w.extractLsb' 8 8) (w.extractLsb' 16 8) (w.extractLsb' 24 8) = w := by
  apply BitVec.eq_of_getLsbD_eq
  intro k hk
  simp only [wordOfBytes, BitVec.getLsbD_extractLsb', BitVec.getLsbD_cast, BitVec.getLsbD_append]
  grind

/-- Decoding a word's four bytes, whatever follows them, is decoding the word. -/
theorem decodeBytes_bytesOfWord (mac : BitVec 7) (w : Word) (rest : List Byte) :
    decodeBytes mac (bytesOfWord w ++ rest) = (decodeWord mac w).map (·, rest) := by
  simp only [decodeBytes, bytesOfWord, List.cons_append, List.nil_append, wordOfBytes_bytesOfWord]
  cases decodeWord mac w <;> rfl

end Sys2Proof
end

