-- ==== Sys2Proof/Laws/PerInstr.lean ====
section
/-! SUPPORT. Statements about every instruction as syntax, one lemma per constructor. -/

namespace Sys2Proof.Laws

/-- The class opcode of an instruction (30_encoding.md rule R63). -/
def classOpcode (mac : BitVec 7) : Instr → BitVec 7
  | .add _ _ _ => 0x33
  | .mul _ _ _ => 0x33
  | .sub _ _ _ => 0x33
  | .sll _ _ _ => 0x33
  | .mulh _ _ _ => 0x33
  | .slt _ _ _ _ => 0x33
  | .xor _ _ _ => 0x33
  | .div _ _ _ => 0x33
  | .srl _ _ _ => 0x33
  | .sra _ _ _ => 0x33
  | .or _ _ _ => 0x33
  | .rem _ _ _ => 0x33
  | .and _ _ _ _ => 0x33
  | .mac _ _ _ => mac
  | .altMul _ _ _ => mac
  | .altSub _ _ _ => mac
  | .altSll _ _ _ => mac
  | .altMulh _ _ _ => mac
  | .altSlt _ _ _ _ => mac
  | .altXor _ _ _ => mac
  | .altDiv _ _ _ => mac
  | .altSrl _ _ _ => mac
  | .altSra _ _ _ => mac
  | .altOr _ _ _ => mac
  | .altRem _ _ _ => mac
  | .altAnd _ _ _ _ => mac
  | .addi _ _ _ => 0x13
  | .slli _ _ _ => 0x13
  | .slti _ _ _ => 0x13
  | .xori _ _ _ => 0x13
  | .srli _ _ _ => 0x13
  | .ori _ _ _ => 0x13
  | .andi _ _ _ => 0x13
  | .lui _ _ => 0x37
  | .beq _ _ _ => 0x63
  | .bne _ _ _ => 0x63
  | .jal _ _ => 0x6F
  | .lb _ _ _ => 0x03
  | .lh _ _ _ => 0x03
  | .lw _ _ _ => 0x03
  | .sb _ _ _ => 0x23
  | .sh _ _ _ => 0x23
  | .sw _ _ _ => 0x23
  | .ecall _ => 0x73

/-- The opcode field of an instruction's word is its class opcode. -/
def OpcodeField.Statement (i : Instr) : Prop := ∀ mac, opcodeField (encode mac i) = classOpcode mac i

theorem OpcodeField.add (rd rs1 rs2 : RegIdx) : OpcodeField.Statement (.add rd rs1 rs2) := fun _ =>
  opcodeField_wordR _ _ _ _ _ _
theorem OpcodeField.mul (rd rs1 rs2 : RegIdx) : OpcodeField.Statement (.mul rd rs1 rs2) := fun _ =>
  opcodeField_wordR _ _ _ _ _ _
theorem OpcodeField.sub (rd rs1 rs2 : RegIdx) : OpcodeField.Statement (.sub rd rs1 rs2) := fun _ =>
  opcodeField_wordR _ _ _ _ _ _
theorem OpcodeField.sll (rd rs1 rs2 : RegIdx) : OpcodeField.Statement (.sll rd rs1 rs2) := fun _ =>
  opcodeField_wordR _ _ _ _ _ _
theorem OpcodeField.mulh (rd rs1 rs2 : RegIdx) : OpcodeField.Statement (.mulh rd rs1 rs2) := fun _ =>
  opcodeField_wordR _ _ _ _ _ _
theorem OpcodeField.slt (rd rs1 rs2 : RegIdx) (funct7 : BitVec 7) : OpcodeField.Statement (.slt rd rs1 rs2 funct7) := fun _ =>
  opcodeField_wordR _ _ _ _ _ _
theorem OpcodeField.xor (rd rs1 rs2 : RegIdx) : OpcodeField.Statement (.xor rd rs1 rs2) := fun _ =>
  opcodeField_wordR _ _ _ _ _ _
theorem OpcodeField.div (rd rs1 rs2 : RegIdx) : OpcodeField.Statement (.div rd rs1 rs2) := fun _ =>
  opcodeField_wordR _ _ _ _ _ _
theorem OpcodeField.srl (rd rs1 rs2 : RegIdx) : OpcodeField.Statement (.srl rd rs1 rs2) := fun _ =>
  opcodeField_wordR _ _ _ _ _ _
theorem OpcodeField.sra (rd rs1 rs2 : RegIdx) : OpcodeField.Statement (.sra rd rs1 rs2) := fun _ =>
  opcodeField_wordR _ _ _ _ _ _
theorem OpcodeField.or (rd rs1 rs2 : RegIdx) : OpcodeField.Statement (.or rd rs1 rs2) := fun _ =>
  opcodeField_wordR _ _ _ _ _ _
theorem OpcodeField.rem (rd rs1 rs2 : RegIdx) : OpcodeField.Statement (.rem rd rs1 rs2) := fun _ =>
  opcodeField_wordR _ _ _ _ _ _
theorem OpcodeField.and (rd rs1 rs2 : RegIdx) (funct7 : BitVec 7) : OpcodeField.Statement (.and rd rs1 rs2 funct7) := fun _ =>
  opcodeField_wordR _ _ _ _ _ _
theorem OpcodeField.mac (rd rs1 rs2 : RegIdx) : OpcodeField.Statement (.mac rd rs1 rs2) := fun _ =>
  opcodeField_wordR _ _ _ _ _ _
theorem OpcodeField.altMul (rd rs1 rs2 : RegIdx) : OpcodeField.Statement (.altMul rd rs1 rs2) := fun _ =>
  opcodeField_wordR _ _ _ _ _ _
theorem OpcodeField.altSub (rd rs1 rs2 : RegIdx) : OpcodeField.Statement (.altSub rd rs1 rs2) := fun _ =>
  opcodeField_wordR _ _ _ _ _ _
theorem OpcodeField.altSll (rd rs1 rs2 : RegIdx) : OpcodeField.Statement (.altSll rd rs1 rs2) := fun _ =>
  opcodeField_wordR _ _ _ _ _ _
theorem OpcodeField.altMulh (rd rs1 rs2 : RegIdx) : OpcodeField.Statement (.altMulh rd rs1 rs2) := fun _ =>
  opcodeField_wordR _ _ _ _ _ _
theorem OpcodeField.altSlt (rd rs1 rs2 : RegIdx) (funct7 : BitVec 7) : OpcodeField.Statement (.altSlt rd rs1 rs2 funct7) := fun _ =>
  opcodeField_wordR _ _ _ _ _ _
theorem OpcodeField.altXor (rd rs1 rs2 : RegIdx) : OpcodeField.Statement (.altXor rd rs1 rs2) := fun _ =>
  opcodeField_wordR _ _ _ _ _ _
theorem OpcodeField.altDiv (rd rs1 rs2 : RegIdx) : OpcodeField.Statement (.altDiv rd rs1 rs2) := fun _ =>
  opcodeField_wordR _ _ _ _ _ _
theorem OpcodeField.altSrl (rd rs1 rs2 : RegIdx) : OpcodeField.Statement (.altSrl rd rs1 rs2) := fun _ =>
  opcodeField_wordR _ _ _ _ _ _
theorem OpcodeField.altSra (rd rs1 rs2 : RegIdx) : OpcodeField.Statement (.altSra rd rs1 rs2) := fun _ =>
  opcodeField_wordR _ _ _ _ _ _
theorem OpcodeField.altOr (rd rs1 rs2 : RegIdx) : OpcodeField.Statement (.altOr rd rs1 rs2) := fun _ =>
  opcodeField_wordR _ _ _ _ _ _
theorem OpcodeField.altRem (rd rs1 rs2 : RegIdx) : OpcodeField.Statement (.altRem rd rs1 rs2) := fun _ =>
  opcodeField_wordR _ _ _ _ _ _
theorem OpcodeField.altAnd (rd rs1 rs2 : RegIdx) (funct7 : BitVec 7) : OpcodeField.Statement (.altAnd rd rs1 rs2 funct7) := fun _ =>
  opcodeField_wordR _ _ _ _ _ _
theorem OpcodeField.addi (rd rs1 : RegIdx) (imm : BitVec 12) : OpcodeField.Statement (.addi rd rs1 imm) := fun _ =>
  opcodeField_wordI _ _ _ _ _
theorem OpcodeField.slli (rd rs1 : RegIdx) (imm : BitVec 12) : OpcodeField.Statement (.slli rd rs1 imm) := fun _ =>
  opcodeField_wordI _ _ _ _ _
theorem OpcodeField.slti (rd rs1 : RegIdx) (imm : BitVec 12) : OpcodeField.Statement (.slti rd rs1 imm) := fun _ =>
  opcodeField_wordI _ _ _ _ _
theorem OpcodeField.xori (rd rs1 : RegIdx) (imm : BitVec 12) : OpcodeField.Statement (.xori rd rs1 imm) := fun _ =>
  opcodeField_wordI _ _ _ _ _
theorem OpcodeField.srli (rd rs1 : RegIdx) (imm : BitVec 12) : OpcodeField.Statement (.srli rd rs1 imm) := fun _ =>
  opcodeField_wordI _ _ _ _ _
theorem OpcodeField.ori (rd rs1 : RegIdx) (imm : BitVec 12) : OpcodeField.Statement (.ori rd rs1 imm) := fun _ =>
  opcodeField_wordI _ _ _ _ _
theorem OpcodeField.andi (rd rs1 : RegIdx) (imm : BitVec 12) : OpcodeField.Statement (.andi rd rs1 imm) := fun _ =>
  opcodeField_wordI _ _ _ _ _
theorem OpcodeField.lui (rd : RegIdx) (imm : BitVec 20) : OpcodeField.Statement (.lui rd imm) := fun _ =>
  opcodeField_wordU _ _ _
theorem OpcodeField.beq (rs1 rs2 : RegIdx) (offset : BitVec 13) : OpcodeField.Statement (.beq rs1 rs2 offset) := fun _ =>
  opcodeField_wordB _ _ _ _ _
theorem OpcodeField.bne (rs1 rs2 : RegIdx) (offset : BitVec 13) : OpcodeField.Statement (.bne rs1 rs2 offset) := fun _ =>
  opcodeField_wordB _ _ _ _ _
theorem OpcodeField.jal (rd : RegIdx) (offset : BitVec 21) : OpcodeField.Statement (.jal rd offset) := fun _ =>
  opcodeField_wordJ _ _ _
theorem OpcodeField.lb (rd rs1 : RegIdx) (imm : BitVec 12) : OpcodeField.Statement (.lb rd rs1 imm) := fun _ =>
  opcodeField_wordI _ _ _ _ _
theorem OpcodeField.lh (rd rs1 : RegIdx) (imm : BitVec 12) : OpcodeField.Statement (.lh rd rs1 imm) := fun _ =>
  opcodeField_wordI _ _ _ _ _
theorem OpcodeField.lw (rd rs1 : RegIdx) (imm : BitVec 12) : OpcodeField.Statement (.lw rd rs1 imm) := fun _ =>
  opcodeField_wordI _ _ _ _ _
theorem OpcodeField.sb (rs1 rs2 : RegIdx) (imm : BitVec 12) : OpcodeField.Statement (.sb rs1 rs2 imm) := fun _ =>
  opcodeField_wordS _ _ _ _ _
theorem OpcodeField.sh (rs1 rs2 : RegIdx) (imm : BitVec 12) : OpcodeField.Statement (.sh rs1 rs2 imm) := fun _ =>
  opcodeField_wordS _ _ _ _ _
theorem OpcodeField.sw (rs1 rs2 : RegIdx) (imm : BitVec 12) : OpcodeField.Statement (.sw rs1 rs2 imm) := fun _ =>
  opcodeField_wordS _ _ _ _ _
theorem OpcodeField.ecall (ignored : BitVec 25) : OpcodeField.Statement (.ecall ignored) := fun mac => by
  apply BitVec.eq_of_getLsbD_eq
  intro k hk
  simp only [encode, classOpcode, opcodeField, BitVec.getLsbD_extractLsb', BitVec.getLsbD_cast, BitVec.getLsbD_append]
  simp [hk]

end Sys2Proof.Laws
end

