-- ==== Sys2Proof/Laws/System.lean ====
section
/-! SUPPORT. What the services of the system call do, one lemma each, and what they print. -/

namespace Sys2Proof.Machine

/-! ## The services -/

/-- The service the code selects, with the registers' numbers in place. -/
theorem exec_ecall (b : BitVec 25) (s : State) :
    exec (.ecall b) s =
      if s.getReg 10 = 1 then .next (s.emit ((decimalText (sint (s.getReg 11))).map .byte)).advance
      else if s.getReg 10 = 4 then
        .next (s.emit ((s.mem.stringFrom (uint (s.getReg 11))
          (s.cfg.memorySpace - uint (s.getReg 11))).map .byte)).advance
      else if s.getReg 10 = 10 then .next ((s.emit [.exitBanner]).haltWith .exit)
      else if s.getReg 10 = 11 then .next (s.emit [.byte ((s.getReg 11).extractLsb' 0 8)]).advance
      else .next (s.haltWith (.illegalServiceCall (s.getReg 10))) := rfl

/-! ## Decimal text -/

theorem digitByte_toNat {d : Nat} (h : d < 10) : (digitByte d).toNat = 0x30 + d := by
  simp [digitByte]
  omega

/-- With enough fuel the digits are decimal digits that name the number, with no leading zero. -/
theorem decimalDigits_spec : ∀ fuel n, n < fuel → decimalDigits fuel n ≠ [] ∧
    (∀ d ∈ decimalDigits fuel n, 0x30 ≤ d.toNat ∧ d.toNat ≤ 0x39) ∧ decimalValue (decimalDigits fuel n) = n ∧
    ((decimalDigits fuel n).head? = some 0x30 → decimalDigits fuel n = [0x30] ∧ n = 0)
  | 0, n, h => by omega
  | fuel + 1, n, h => by
    simp only [decimalDigits]
    split
    · next hn =>
      have hd := digitByte_toNat hn
      refine ⟨by simp, by simp; omega, ?_, ?_⟩
      · simp [decimalValue]
        omega
      · simp only [List.head?_cons, Option.some.injEq]
        intro he
        rw [he] at hd ⊢
        exact ⟨rfl, by simp at hd; omega⟩
    · next hn =>
      have hd := digitByte_toNat (show n % 10 < 10 by omega)
      obtain ⟨hne, hdig, hval, hhead⟩ := decimalDigits_spec fuel (n / 10) (by omega)
      have hh : (decimalDigits fuel (n / 10) ++ [digitByte (n % 10)]).head? = (decimalDigits fuel (n / 10)).head? := by
        cases he : decimalDigits fuel (n / 10) with
        | nil => exact absurd he hne
        | cons => rfl
      refine ⟨by simp, ?_, ?_, ?_⟩
      · intro x hx
        rcases List.mem_append.1 hx with hx | hx
        · exact hdig x hx
        · simp at hx
          subst hx
          omega
      · simp only [decimalValue, List.foldl_append, List.foldl] at *
        rw [hval, hd]
        omega
      · rw [hh]
        intro he
        have := (hhead he).2
        omega

/-! ## Strings -/

/-- The string is the bytes before the first zero byte, at most `bound` of them. -/
theorem Memory.stringFrom_spec (m : Memory) : ∀ bound a, ∃ n ≤ bound, (∀ k < n, m.read (a + k) ≠ 0) ∧
    (n = bound ∨ m.read (a + n) = 0) ∧ m.stringFrom a bound = (List.range n).map fun k => m.read (a + k)
  | 0, a => ⟨0, by simp [Memory.stringFrom]⟩
  | bound + 1, a => by
    by_cases h : m.read a = 0
    · exact ⟨0, by simp [Memory.stringFrom, h]⟩
    · obtain ⟨n, hle, hnz, hend, heq⟩ := Memory.stringFrom_spec m bound (a + 1)
      have e : ∀ k, a + 1 + k = a + (k + 1) := by intro k; omega
      refine ⟨n + 1, by omega, ?_, ?_, ?_⟩
      · rintro (_ | k) hk
        · exact h
        · rw [← e]
          exact hnz k (by omega)
      · rcases hend with hend | hend
        · left; omega
        · right; rw [← e]; exact hend
      · simp only [Memory.stringFrom, h, if_false, heq, List.range_succ_eq_map, List.map_cons, List.map_map]
        simp [Function.comp_def, e]

end Sys2Proof.Machine
end

