-- ==== Sys2Proof/Tests/Slice0.lean ====
section
/-! SUPPORT. Tests: ill-formed terms, decoding of words written out from the spec's encodings, single steps with the
results of 95_test_vectors.md, and a witness for the hypotheses of every obligation. -/

namespace Sys2Proof.Tests

open Sys2Proof Sys2Proof.Machine

/-! ## Helpers -/

/-- The reset state with the given program counter, registers and memory bytes. -/
def at' (pc : Word) (regs : List (RegIdx × Word)) (bytes : List (Nat × Byte)) : State :=
  { regs.foldl (fun s p => s.setReg p.1 p.2) State.reset with
    pc := pc, mem := bytes.foldl (fun m p => m.write p.1 p.2) [] }

/-- The state an outcome leads to; `State.reset` where there is none. -/
def nextOf : Result → State
  | .next t => t
  | .fault _ => State.reset
  | .refused _ => State.reset

/-- Whether there is a next state. -/
def answersNext : Result → Bool
  | .next _ => true
  | .fault _ => false
  | .refused _ => false

theorem nextOf_eq {r : Result} (h : answersNext r = true) : r = .next (nextOf r) := by
  cases r with
  | next t => rfl
  | fault _ => exact absurd h Bool.false_ne_true
  | refused _ => exact absurd h Bool.false_ne_true

theorem outcome_eq {r q : Result} (hr : answersNext r = true) (hq : answersNext q = true)
    (h : nextOf r = nextOf q) : r = q := by
  rw [nextOf_eq hr, nextOf_eq hq, h]

/-- One activation on a word at pc = 0x100 with x1, x2 and x3 given (the convention of 95_test_vectors.md). -/
def run3 (w x1 x2 x3 : Word) : State := nextOf (executeWord w (at' 0x100 [(1, x1), (2, x2), (3, x3)] []))

/-- The bytes of 95_test_vectors.md section L2.7. -/
def bytes27 : List (Nat × Byte) := [(0x100, 0x80), (0x101, 0xFF), (0x102, 0x34), (0x103, 0x12), (0x104, 0x56)]

/-- One activation on those bytes. -/
def runMem (w x1 x2 : Word) : State := nextOf (executeWord w (at' 0x100 [(1, x1), (2, x2)] bytes27))

/-- One system call. -/
def runCall (w a0 a1 : Word) (bytes : List (Nat × Byte)) : State :=
  nextOf (executeWord w (at' 0x100 [(10, a0), (11, a1)] bytes))

/-- The word placed at pc, as the loader does, in a state with the given registers. -/
def placed (pc w : Word) (regs : List (RegIdx × Word)) : State := (at' pc regs []).withFetchWord 32 w.toNat

/-! ## Well-formedness: an odd offset has no encoding (30_encoding.md rules R68 and R70) -/

theorem test_wf_beq_odd : (Instr.beq 1 2 0x0009).wf = false := by decide
theorem test_wf_bne_odd : (Instr.bne 1 2 0x1FFF).wf = false := by decide
theorem test_wf_jal_odd : (Instr.jal 1 0x000801).wf = false := by decide

/-! ## Decoding: words written out field by field from 30_encoding.md rules R62 to R64 and R73 to R79 -/

/-- funct7 rs2 rs1 funct3 rd opcode = 0110011. -/
theorem test_decode_standard :
    decodeWord 0x0B 0b0000000_00010_00001_000_00011_0110011 = .ok (.add 3 1 2) ∧
    decodeWord 0x0B 0b0000001_00010_00001_000_00011_0110011 = .ok (.mul 3 1 2) ∧
    decodeWord 0x0B 0b0100000_00010_00001_000_00011_0110011 = .ok (.sub 3 1 2) ∧
    decodeWord 0x0B 0b0000000_00010_00001_001_00011_0110011 = .ok (.sll 3 1 2) ∧
    decodeWord 0x0B 0b0000001_00010_00001_001_00011_0110011 = .ok (.mulh 3 1 2) ∧
    decodeWord 0x0B 0b0000001_00010_00001_010_00011_0110011 = .ok (.slt 3 1 2 0b0000001) ∧
    decodeWord 0x0B 0b0000000_00010_00001_100_00011_0110011 = .ok (.xor 3 1 2) ∧
    decodeWord 0x0B 0b0000001_00010_00001_100_00011_0110011 = .ok (.div 3 1 2) ∧
    decodeWord 0x0B 0b0000000_00010_00001_101_00011_0110011 = .ok (.srl 3 1 2) ∧
    decodeWord 0x0B 0b0100000_00010_00001_101_00011_0110011 = .ok (.sra 3 1 2) ∧
    decodeWord 0x0B 0b0000000_00010_00001_110_00011_0110011 = .ok (.or 3 1 2) ∧
    decodeWord 0x0B 0b0000001_00010_00001_110_00011_0110011 = .ok (.rem 3 1 2) ∧
    decodeWord 0x0B 0b1111111_00010_00001_111_00011_0110011 = .ok (.and 3 1 2 0b1111111) := by decide

/-- funct7 rs2 rs1 funct3 rd opcode = 0001011, which the vectors take for `MAC_OPCODE`. -/
theorem test_decode_alternate :
    decodeWord 0x0B 0b0000000_00010_00001_000_00011_0001011 = .ok (.mac 3 1 2) ∧
    decodeWord 0x0B 0b0000001_00010_00001_000_00011_0001011 = .ok (.altMul 3 1 2) ∧
    decodeWord 0x0B 0b0100000_00010_00001_000_00011_0001011 = .ok (.altSub 3 1 2) ∧
    decodeWord 0x0B 0b0000000_00010_00001_001_00011_0001011 = .ok (.altSll 3 1 2) ∧
    decodeWord 0x0B 0b0000001_00010_00001_001_00011_0001011 = .ok (.altMulh 3 1 2) ∧
    decodeWord 0x0B 0b0000001_00010_00001_010_00011_0001011 = .ok (.altSlt 3 1 2 0b0000001) ∧
    decodeWord 0x0B 0b0000000_00010_00001_100_00011_0001011 = .ok (.altXor 3 1 2) ∧
    decodeWord 0x0B 0b0000001_00010_00001_100_00011_0001011 = .ok (.altDiv 3 1 2) ∧
    decodeWord 0x0B 0b0000000_00010_00001_101_00011_0001011 = .ok (.altSrl 3 1 2) ∧
    decodeWord 0x0B 0b0100000_00010_00001_101_00011_0001011 = .ok (.altSra 3 1 2) ∧
    decodeWord 0x0B 0b0000000_00010_00001_110_00011_0001011 = .ok (.altOr 3 1 2) ∧
    decodeWord 0x0B 0b0000001_00010_00001_110_00011_0001011 = .ok (.altRem 3 1 2) ∧
    decodeWord 0x0B 0b1111111_00010_00001_111_00011_0001011 = .ok (.altAnd 3 1 2 0b1111111) := by decide

/-- imm[11:0] rs1 funct3 rd opcode = 0010011. -/
theorem test_decode_immediate :
    decodeWord 0x0B 0b100000000001_00001_000_00011_0010011 = .ok (.addi 3 1 0b100000000001) ∧
    decodeWord 0x0B 0b100000000001_00001_001_00011_0010011 = .ok (.slli 3 1 0b100000000001) ∧
    decodeWord 0x0B 0b100000000001_00001_010_00011_0010011 = .ok (.slti 3 1 0b100000000001) ∧
    decodeWord 0x0B 0b100000000001_00001_100_00011_0010011 = .ok (.xori 3 1 0b100000000001) ∧
    decodeWord 0x0B 0b100000000001_00001_101_00011_0010011 = .ok (.srli 3 1 0b100000000001) ∧
    decodeWord 0x0B 0b100000000001_00001_110_00011_0010011 = .ok (.ori 3 1 0b100000000001) ∧
    decodeWord 0x0B 0b100000000001_00001_111_00011_0010011 = .ok (.andi 3 1 0b100000000001) := by decide

/-- imm[31:12] rd opcode = 0110111. -/
theorem test_decode_lui : decodeWord 0x0B 0b00010010001101000101_00011_0110111 = .ok (.lui 3 0x12345) := by decide

/-- imm[12] imm[10:5] rs2 rs1 funct3 imm[4:1] imm[11] opcode = 1100011. -/
theorem test_decode_branch :
    decodeWord 0x0B 0b1_000000_00010_00001_000_0000_0_1100011 = .ok (.beq 1 2 0b1000000000000) ∧
    decodeWord 0x0B 0b0_100000_00010_00001_000_0001_0_1100011 = .ok (.beq 1 2 0b0010000000010) ∧
    decodeWord 0x0B 0b0_000001_00010_00001_001_1000_1_1100011 = .ok (.bne 1 2 0b0100000110000) := by decide

/-- imm[20] imm[10:1] imm[11] imm[19:12] rd opcode = 1101111. -/
theorem test_decode_jal :
    decodeWord 0x0B 0b1_0000000000_0_00000000_00001_1101111 = .ok (.jal 1 0b100000000000000000000) ∧
    decodeWord 0x0B 0b0_1000000001_1_10000001_00001_1101111 = .ok (.jal 1 0b010000001110000000010) := by decide

/-- imm[11:0] rs1 funct3 rd opcode = 0000011. -/
theorem test_decode_load :
    decodeWord 0x0B 0b100000000001_00001_000_00011_0000011 = .ok (.lb 3 1 0b100000000001) ∧
    decodeWord 0x0B 0b100000000001_00001_001_00011_0000011 = .ok (.lh 3 1 0b100000000001) ∧
    decodeWord 0x0B 0b100000000001_00001_010_00011_0000011 = .ok (.lw 3 1 0b100000000001) := by decide

/-- imm[11:5] rs2 rs1 funct3 imm[4:0] opcode = 0100011. -/
theorem test_decode_store :
    decodeWord 0x0B 0b1000001_00010_00001_000_00010_0100011 = .ok (.sb 1 2 0b100000100010) ∧
    decodeWord 0x0B 0b1000001_00010_00001_001_00010_0100011 = .ok (.sh 1 2 0b100000100010) ∧
    decodeWord 0x0B 0b1000001_00010_00001_010_00010_0100011 = .ok (.sw 1 2 0b100000100010) := by decide

/-- opcode = 1110011, every other bit free. -/
theorem test_decode_ecall :
    decodeWord 0x0B 0b0000000000000000000000000_1110011 = .ok (.ecall 0) ∧
    decodeWord 0x0B 0b1000000000000000000000001_1110011 = .ok (.ecall 0x1000001) := by decide

/-- The accepted words of 95_test_vectors.md section L2.11 that RISC-V reads otherwise. -/
theorem test_decode_accepted_as_another :
    decodeWord 0x0B 0x0220A1B3 = .ok (.slt 3 1 2 1) ∧ decodeWord 0x0B 0x0220F1B3 = .ok (.and 3 1 2 1) ∧
    decodeWord 0x0B 0x4030D193 = .ok (.srli 3 1 0x403) ∧ decodeWord 0x0B 0x40309193 = .ok (.slli 3 1 0x403) := by
  decide

/-- The invalid words of 95_test_vectors.md section L2.10, case by case of 30_encoding.md rule R80. -/
theorem test_decode_invalid :
    decodeWord 0x0B 0x00000000 = .error .unknownOpcode ∧ decodeWord 0x0B 0xFFFFFFFF = .error .unknownOpcode ∧
    decodeWord 0x0B 0x00008067 = .error .unknownOpcode ∧ decodeWord 0x0B 0x0020B1B3 = .error .registerFunct ∧
    decodeWord 0x0B 0x042081B3 = .error .registerFunct ∧ decodeWord 0x0B 0x4020C1B3 = .error .registerFunct ∧
    decodeWord 0x0B 0x0220D1B3 = .error .registerFunct ∧ decodeWord 0x0B 0x0010B193 = .error .immediateFunct3 ∧
    decodeWord 0x0B 0x0000C183 = .error .loadFunct3 ∧ decodeWord 0x0B 0x0020B023 = .error .storeFunct3 ∧
    decodeWord 0x0B 0x00202063 = .error .branchFunct3 := by decide

/-- Bytes are taken least significant first, and too few of them are refused (20_memory.md rule R43). -/
theorem test_decode_bytes :
    decodeBytes 0x0B [0xB3, 0x81, 0x20, 0x00, 0x73] = .ok (.add 3 1 2, [0x73]) ∧
    decodeBytes 0x0B [0xB3, 0x81, 0x20] = .error .truncated := by decide

/-- The host's two questions on one row: the decoder reads the word, and the step after it runs the instruction. -/
theorem test_host_questions :
    decodeTableWord 32 0x002081B3 = some (.add 3 1 2) ∧
    step (State.reset.withFetchWord 32 0x123451B7) =
      exec (.lui 3 0x12345) (State.reset.withFetchWord 32 0x123451B7) :=
  ⟨by decide, outcome_eq (by decide) (by decide) (by decide)⟩

/-! ## Register-register operations (95_test_vectors.md sections L2.2 to L2.4) -/

theorem test_add_wraps : (run3 0x002081B3 0x7FFFFFFF 1 0).getReg 3 = 0x80000000 := by decide
theorem test_add_carry : (run3 0x002081B3 0xFFFFFFFF 1 0).getReg 3 = 0 := by decide
theorem test_sub_borrow : (run3 0x402081B3 0 1 0).getReg 3 = 0xFFFFFFFF := by decide
theorem test_sub_sign : (run3 0x402081B3 0x80000000 1 0).getReg 3 = 0x7FFFFFFF := by decide
theorem test_mul_signed : (run3 0x022081B3 0xFFFFFFFD 7 0).getReg 3 = 0xFFFFFFEB := by decide
theorem test_mul_low_word : (run3 0x022081B3 0x80000000 0xFFFFFFFF 0).getReg 3 = 0x80000000 := by decide
theorem test_mulh_signed : (run3 0x022091B3 0xFFFFFFFF 1 0).getReg 3 = 0xFFFFFFFF := by decide
theorem test_mulh_mixed : (run3 0x022091B3 0x80000000 0x7FFFFFFF 0).getReg 3 = 0xC0000000 := by decide
theorem test_sll_31 : (run3 0x002091B3 1 0x1F 0).getReg 3 = 0x80000000 := by decide
theorem test_sll_32 : (run3 0x002091B3 1 0x20 0).getReg 3 = 0 := by decide
theorem test_srl_31 : (run3 0x0020D1B3 0x80000000 0x1F 0).getReg 3 = 1 := by decide
theorem test_srl_32 : (run3 0x0020D1B3 0x80000000 0x20 0).getReg 3 = 0 := by decide
theorem test_sra_4 : (run3 0x4020D1B3 0xF0000000 4 0).getReg 3 = 0xFF000000 := by decide
theorem test_sra_33 : (run3 0x4020D1B3 0x80000000 0x21 0).getReg 3 = 0xFFFFFFFF := by decide
theorem test_slt_signed : (run3 0x0020A1B3 0xFFFFFFFF 1 0).getReg 3 = 1 := by decide
theorem test_slt_funct7 : (run3 0x4020A1B3 0xFFFFFFFF 1 0).getReg 3 = 1 := by decide
theorem test_xor : (run3 0x0020C1B3 0xF0F0F0F0 0xFF00FF00 0).getReg 3 = 0x0FF00FF0 := by decide
theorem test_or : (run3 0x0020E1B3 0xF0F0F0F0 0x0F0F0F0F 0).getReg 3 = 0xFFFFFFFF := by decide
theorem test_and : (run3 0x0020F1B3 0xF0F0F0F0 0xFF00FF00 0).getReg 3 = 0xF000F000 := by decide
theorem test_and_funct7 : (run3 0xFE20F1B3 0xFFFFFFFF 1 0).getReg 3 = 1 := by decide
theorem test_div_toward_zero : (run3 0x0220C1B3 7 0xFFFFFFFE 0).getReg 3 = 0xFFFFFFFD := by decide
theorem test_div_overflow : (run3 0x0220C1B3 0x80000000 0xFFFFFFFF 0).getReg 3 = 0x80000000 := by decide
theorem test_rem_sign : (run3 0x0220E1B3 0xFFFFFFF9 2 0).getReg 3 = 0xFFFFFFFF := by decide
theorem test_rem_by_zero : (run3 0x0220E1B3 0xFFFFFFF9 0 0).getReg 3 = 0xFFFFFFF9 := by decide
theorem test_mac_accumulates : (run3 0x0020818B 3 4 0x0A).getReg 3 = 0x16 := by decide
theorem test_mac_signed : (run3 0x0020818B 0xFFFFFFFF 3 5).getReg 3 = 2 := by decide
theorem test_altMul : (run3 0x0220818B 0xFFFFFFFD 7 0).getReg 3 = 0xFFFFFFEB := by decide
theorem test_altSub : (run3 0x4020818B 0 1 0).getReg 3 = 0xFFFFFFFF := by decide
theorem test_altSll : (run3 0x0020918B 1 0x1F 0).getReg 3 = 0x80000000 := by decide
theorem test_altMulh : (run3 0x0220918B 0x80000000 0x80000000 0).getReg 3 = 0x40000000 := by decide
theorem test_altSlt : (run3 0x0020A18B 0xFFFFFFFF 1 0).getReg 3 = 1 := by decide
theorem test_altXor : (run3 0x0020C18B 0xF0F0F0F0 0xFF00FF00 0).getReg 3 = 0x0FF00FF0 := by decide
theorem test_altDiv_by_zero : (run3 0x0220C18B 7 0 0).getReg 3 = 0xFFFFFFFF := by decide
theorem test_altSrl : (run3 0x0020D18B 0x80000000 0x1F 0).getReg 3 = 1 := by decide
theorem test_altSra : (run3 0x4020D18B 0x80000000 0x1F 0).getReg 3 = 0xFFFFFFFF := by decide
theorem test_altOr : (run3 0x0020E18B 0xF0F0F0F0 0x0F0F0F0F 0).getReg 3 = 0xFFFFFFFF := by decide
theorem test_altRem : (run3 0x0220E18B 0xFFFFFFF9 2 0).getReg 3 = 0xFFFFFFFF := by decide
theorem test_altAnd : (run3 0x0020F18B 0xF0F0F0F0 0xFF00FF00 0).getReg 3 = 0xF000F000 := by decide
theorem test_register_zero_is_written : (run3 0x00208033 5 6 0).getReg 0 = 0x0B := by decide

/-! ## Register-immediate operations and LUI (95_test_vectors.md section L2.5) -/

theorem test_addi_minus_one : (run3 0xFFF08193 5 0 0).getReg 3 = 4 := by decide
theorem test_addi_wraps : (run3 0x00108193 0x7FFFFFFF 0 0).getReg 3 = 0x80000000 := by decide
theorem test_slli_31 : (run3 0x01F09193 1 0 0).getReg 3 = 0x80000000 := by decide
theorem test_slli_minus_one : (run3 0xFFF09193 1 0 0).getReg 3 = 0 := by decide
theorem test_slti_signed : (run3 0xFFC0A193 0xFFFFFFFB 0 0).getReg 3 = 1 := by decide
theorem test_slti_minimum : (run3 0x8000A193 0x80000000 0 0).getReg 3 = 1 := by decide
theorem test_xori_complement : (run3 0xFFF0C193 0x00001234 0 0).getReg 3 = 0xFFFFEDCB := by decide
theorem test_srli_4 : (run3 0x0040D193 0x80000000 0 0).getReg 3 = 0x08000000 := by decide
theorem test_srli_1027 : (run3 0x4030D193 0x80000000 0 0).getReg 3 = 0 := by decide
theorem test_ori_negative : (run3 0x8000E193 0 0 0).getReg 3 = 0xFFFFF800 := by decide
theorem test_andi_negative : (run3 0xFF00F193 0xFFFFFFFF 0 0).getReg 3 = 0xFFFFFFF0 := by decide
theorem test_lui : (run3 0x123451B7 0 0 0xFFFFFFFF).getReg 3 = 0x12345000 := by decide

/-! ## Branches and the jump (95_test_vectors.md section L2.6) -/

/-- The program counter after a branch on x1 and x2 at pc = 0x2000. -/
def branchPc (w x1 x2 : Word) : Word := (nextOf (executeWord w (at' 0x2000 [(1, x1), (2, x2)] []))).pc

theorem test_beq_low_halves : branchPc 0x00208863 0x00010000 0 = 0x2010 := by decide
theorem test_beq_not_taken : branchPc 0x00208463 5 6 = 0x2004 := by decide
theorem test_bne_backward : branchPc 0xFE209CE3 3 0 = 0x1FF8 := by decide
theorem test_bne_low_halves : branchPc 0x00209463 0xFFFF0000 0 = 0x2004 := by decide

/-- The program counter and the register `rd` after a jump. -/
def jump (w pc : Word) (rd : RegIdx) : Word × Word :=
  ((nextOf (executeWord w (at' pc [] []))).pc, (nextOf (executeWord w (at' pc [] []))).getReg rd)

theorem test_jal_wraps : jump 0xFF1FF0EF 8 1 = (0xFFFFFFF8, 0x0C) := by decide
theorem test_jal_links_x0 : jump 0x0080006F 0x100 0 = (0x108, 0x104) := by decide

/-! ## Loads and stores (95_test_vectors.md section L2.7) -/

theorem test_lb_negative : (runMem 0xFFD08183 0x104 0).getReg 3 = 0xFFFFFFFF := by decide
theorem test_lb_wrapped_address_halts :
    runMem 0xFFF08183 0 0 =
      { at' 0x100 [] bytes27 with status := .halted (.memoryFault 0xFFFFFFFF .byte .load) } := by decide
theorem test_lh_misaligned : (runMem 0x00109183 0x100 0).getReg 3 = 0x000034FF := by decide
theorem test_lh_negative : (runMem 0x00009183 0x100 0).getReg 3 = 0xFFFFFF80 := by decide
theorem test_lw_misaligned : (runMem 0x0010A183 0x100 0).getReg 3 = 0x561234FF := by decide
theorem test_lw_across_the_end_halts :
    (runMem 0x0000A183 0xFFD 0).status = .halted (.memoryFault 0xFFD .word .load) := by decide
theorem test_sb : (runMem 0x00208023 0x100 0xAABBCCDD).mem =
    [(0x100, 0xDD), (0x101, 0xFF), (0x102, 0x34), (0x103, 0x12), (0x104, 0x56)] := by decide
theorem test_sh_misaligned : (runMem 0x002091A3 0x100 0xAABBCCDD).mem =
    [(0x100, 0x80), (0x101, 0xFF), (0x102, 0x34), (0x103, 0xDD), (0x104, 0xCC)] := by decide
theorem test_sw_little_endian : (runMem 0xFE20AE23 0x104 0x11223344).mem =
    [(0x100, 0x44), (0x101, 0x33), (0x102, 0x22), (0x103, 0x11), (0x104, 0x56)] := by decide
theorem test_sw_across_the_end_halts :
    runMem 0x0020A023 0xFFE 0x11223344 =
      { at' 0x100 [(1, 0xFFE), (2, 0x11223344)] bytes27 with
        status := .halted (.memoryFault 0xFFE .word .store) } := by decide

/-- Writing the byte an unlisted address reads as removes the entry (log entry 3). -/
theorem test_canonical_write : Memory.write [(5, 1), (9, 2)] 5 0 = [(9, 2)] := by decide

/-! ## The system call (95_test_vectors.md section L2.9) -/

theorem test_ecall_minimum : (runCall 0x73 1 0x80000000 []).out =
    [0x2D, 0x32, 0x31, 0x34, 0x37, 0x34, 0x38, 0x33, 0x36, 0x34, 0x38].map .byte := by decide
theorem test_ecall_minus_five :
    (runCall 0x73 1 0xFFFFFFFB []).out = [.byte 0x2D, .byte 0x35] ∧ (runCall 0x73 1 0xFFFFFFFB []).pc = 0x104 := by
  decide
theorem test_ecall_string_to_the_end :
    (runCall 0x73 4 0xFFE [(0xFFE, 0x41), (0xFFF, 0x42)]).out = [.byte 0x41, .byte 0x42] := by decide
theorem test_ecall_string_past_the_end :
    runCall 0x73 4 0xFFFFFFFF [] = at' 0x104 [(10, 4), (11, 0xFFFFFFFF)] [] := by decide
theorem test_ecall_exit :
    runCall 0x73 10 0xDEADBEEF [] =
      { at' 0x100 [(10, 10), (11, 0xDEADBEEF)] [] with out := [.exitBanner], status := .halted .exit } := by decide
theorem test_ecall_character_any_word : (runCall 0x34102573 11 0x12345621 []).out = [.byte 0x21] := by decide
theorem test_ecall_illegal :
    runCall 0x73 0x101 0 [] =
      { at' 0x100 [(10, 0x101)] [] with status := .halted (.illegalServiceCall 0x101) } := by decide

/-! ## Fetch, entry and halt (95_test_vectors.md section L2.10) -/

theorem test_fetch_out_of_bounds :
    (nextOf (step (at' 0xFFE [] []))).status = .halted (.fetchFault 0xFFE) ∧
    (nextOf (step (at' 0xFFFFFFFC [] []))).status = .halted (.fetchFault 0xFFFFFFFC) := by decide
theorem test_invalid_before_memory_fault :
    (nextOf (step (placed 0x100 0x0000B183 [(1, 0xFFFFFF00)]))).status =
      .halted (.invalidInstruction 0x0000B183) := by decide
theorem test_step_of_a_halted_core :
    step { State.reset with status := .halted .exit } = .fault (.halted .exit) := rfl

/-! ## Witnesses: concrete states and operands that meet the hypotheses of each obligation, clause by clause -/

theorem witness_DecodeOfEncodeIsTheInstruction :
    (0x0B : BitVec 7) ∉ classOpcodes ∧ (Instr.bne 31 0 0x1000).wf = true ∧ (Instr.jal 31 0x0FFFFE).wf = true := by
  decide

theorem witness_AcceptedWordIsTheEncoding :
    (0x7F : BitVec 7) ∉ classOpcodes ∧ decodeWord 0x7F 0xFE20F1FF = .ok (.altAnd 3 1 2 0x7F) := by decide

theorem witness_InvalidWordsAreExactlyTheSixCases_words :
    (0x0B : BitVec 7) ∉ classOpcodes ∧ InvalidWord 0x0B 0x00000017 ∧ InvalidWord 0x0B 0x0020B18B ∧
      InvalidWord 0x0B 0x0010B193 ∧ InvalidWord 0x0B 0x0000F183 ∧ InvalidWord 0x0B 0x0020B023 ∧
      InvalidWord 0x0B 0x00202063 ∧ ¬ InvalidWord 0x0B 0x0020F1B3 := by
  refine ⟨by decide, ?_, ?_, ?_, ?_, ?_, ?_, ?_⟩ <;> (unfold InvalidWord ListedRow; decide)

theorem witness_InvalidWordsAreExactlyTheSixCases_step :
    (placed 0xFFC 0x0000B183 []).status = .running ∧
      uint (placed 0xFFC 0x0000B183 []).pc + 4 ≤ (placed 0xFFC 0x0000B183 []).cfg.memorySpace ∧
      (placed 0xFFC 0x0000B183 []).cfg.macOpcode ∉ classOpcodes ∧
      InvalidWord (placed 0xFFC 0x0000B183 []).cfg.macOpcode (placed 0xFFC 0x0000B183 []).wordAtPc := by
  unfold InvalidWord ListedRow
  decide

theorem witness_EveryOpcode73WordIsTheSystemCall : (0x34102573 : Word).extractLsb' 0 7 = 0x73 := by decide

theorem witness_StepRunsTheDecodedInstruction :
    (placed 0xFFC 0x0020818B []).AboutToRun (.mac 3 1 2) ∧ (placed 1 0x00000073 []).AboutToRun (.ecall 0) := by
  unfold State.AboutToRun
  decide

theorem witness_FetchOutOfBoundsHalts :
    (at' 0xFFD [] []).status = .running ∧ (at' 0xFFD [] []).cfg.memorySpace < uint (at' 0xFFD [] []).pc + 4 := by
  decide

theorem witness_ExactlyTheRunningStatesStep :
    State.reset.status = .running ∧
      ({ State.reset with status := .halted .exit } : State).status = .halted .exit := by decide

theorem witness_HaltsArePrecise_exit :
    step (placed 0xFFC 0x73 [(10, 10)]) = .next (nextOf (step (placed 0xFFC 0x73 [(10, 10)]))) ∧
      (nextOf (step (placed 0xFFC 0x73 [(10, 10)]))).status = .halted .exit :=
  ⟨nextOf_eq (by decide), by decide⟩

theorem witness_HaltsArePrecise_failure :
    step (placed 0x100 0x0020A023 [(1, 0xFFD)]) = .next (nextOf (step (placed 0x100 0x0020A023 [(1, 0xFFD)]))) ∧
      (nextOf (step (placed 0x100 0x0020A023 [(1, 0xFFD)]))).status =
        .halted (.memoryFault 0xFFD .word .store) :=
  ⟨nextOf_eq (by decide), by decide⟩

/-- A state for each clause, and the halt reason its step gives; the last two steps do not halt. -/
theorem witness_EachHaltReasonHasItsCause :
    State.reset.cfg.macOpcode ∉ classOpcodes ∧
      [at' 0xFFD [] [], placed 0xFFC 0 [], placed 0 0x0000A183 [(1, 0xFFD)], placed 0 0x73 [(10, 12)],
        placed 0 0x73 [(10, 10)], placed 0 0x0000A183 [(1, 0xFFC)], placed 0 0x73 [(10, 11)]].map
        (fun s => (s.status, (nextOf (step s)).status)) =
      [(.running, .halted (.fetchFault 0xFFD)), (.running, .halted (.invalidInstruction 0)),
        (.running, .halted (.memoryFault 0xFFD .word .load)), (.running, .halted (.illegalServiceCall 12)),
        (.running, .halted .exit), (.running, .running), (.running, .running)] := by decide

/-- The store at 0xFF8 writes the word at 0xFFC, the last one that fits. -/
theorem witness_StoredWordIsSeenByTheNextFetch :
    (placed 0xFF8 0x0020A023 [(1, 0xFFC), (2, 0x00A00513)]).AboutToRun (.sw 1 2 0) ∧
      effectiveAddress (placed 0xFF8 0x0020A023 [(1, 0xFFC), (2, 0x00A00513)]) 1 (immS 0) = 0xFF8 + 4 ∧
      uint ((0xFF8 : Word) + 4) + 4 ≤ 0x1000 ∧ decodeWord 0x0B 0x00A00513 = .ok (.addi 10 0 10) ∧
      step (placed 0xFF8 0x0020A023 [(1, 0xFFC), (2, 0x00A00513)]) =
        .next (nextOf (step (placed 0xFF8 0x0020A023 [(1, 0xFFC), (2, 0x00A00513)]))) := by
  refine ⟨?_, by decide, by decide, by decide, nextOf_eq (by decide)⟩
  unfold State.AboutToRun
  decide

theorem witness_ResetLeavesTheStatedValues :
    Config.reference.wf ∧ Memory.wf [(0, 1), (0xFFF, 0x73)] = true ∧
      Memory.within [(0, 1), (0xFFF, 0x73)] Config.reference.memorySpace = true ∧
      ({ memorySpace := 2 ^ 32, macOpcode := 0x7F, entry := 0xFFFFFFFD, exitBanner := [0x21] } : Config).wf := by decide

theorem witness_EveryStepKeepsTheInvariant :
    (placed 0 0x002080A3 [(1, 0xFFE), (2, 1)]).Inv ∧
      step (placed 0 0x002080A3 [(1, 0xFFE), (2, 1)]) =
        .next (nextOf (step (placed 0 0x002080A3 [(1, 0xFFE), (2, 1)]))) :=
  ⟨by decide, nextOf_eq (by decide)⟩

/-- A taken branch from an odd program counter. -/
theorem witness_EveryStepKeepsBitZeroOfPc :
    step (placed 0x101 0x00208163 []) = .next (nextOf (step (placed 0x101 0x00208163 []))) ∧
      (nextOf (step (placed 0x101 0x00208163 []))).pc = 0x103 :=
  ⟨nextOf_eq (by decide), by decide⟩

theorem witness_PcAdvancesByFourUnlessOverridden_halt :
    exec (.ecall 0) (at' 0x100 [] []) = .next (nextOf (exec (.ecall 0) (at' 0x100 [] []))) ∧
      (nextOf (exec (.ecall 0) (at' 0x100 [] []))).status ≠ .running ∧ (at' 0x100 [] []).status = .running :=
  ⟨nextOf_eq (by decide), by decide⟩

theorem witness_PcAdvancesByFourUnlessOverridden_branch :
    exec (.bne 1 2 8) (at' 0x100 [(1, 1)] []) = .next (nextOf (exec (.bne 1 2 8) (at' 0x100 [(1, 1)] []))) ∧
      (nextOf (exec (.bne 1 2 8) (at' 0x100 [(1, 1)] []))).status = .running ∧
      (nextOf (exec (.bne 1 2 8) (at' 0x100 [(1, 1)] []))).pc ≠ 0x104 :=
  ⟨nextOf_eq (by decide), by decide⟩

theorem witness_PcAdvancesByFourUnlessOverridden_jump :
    exec (.jal 0 0) (at' 0x100 [] []) = .next (nextOf (exec (.jal 0 0) (at' 0x100 [] []))) ∧
      (nextOf (exec (.jal 0 0) (at' 0x100 [] []))).status = .running ∧
      (nextOf (exec (.jal 0 0) (at' 0x100 [] []))).pc ≠ 0x104 :=
  ⟨nextOf_eq (by decide), by decide⟩

theorem witness_OnlyTheDestinationRegisterChanges :
    exec (.mac 3 1 2) State.reset = .next (nextOf (exec (.mac 3 1 2) State.reset)) ∧
      destReg (.mac 3 1 2) ≠ some 31 ∧ destReg (.sw 1 2 0) ≠ some 0 :=
  ⟨nextOf_eq (by decide), by decide⟩

theorem witness_OnlyStoresChangeMemory :
    step (placed 0 0x00208023 [(1, 0xFFF), (2, 0x41)]) =
        .next (nextOf (step (placed 0 0x00208023 [(1, 0xFFF), (2, 0x41)]))) ∧
      (nextOf (step (placed 0 0x00208023 [(1, 0xFFF), (2, 0x41)]))).mem.read 0xFFF ≠
        (placed 0 0x00208023 [(1, 0xFFF), (2, 0x41)]).mem.read 0xFFF :=
  ⟨nextOf_eq (by decide), by decide⟩

theorem witness_OnlyTheSystemCallPrints :
    exec (.ecall 7) (at' 0 [(10, 11)] []) = .next (nextOf (exec (.ecall 7) (at' 0 [(10, 11)] []))) ∧
      (nextOf (exec (.ecall 7) (at' 0 [(10, 11)] []))).out ≠ [] :=
  ⟨nextOf_eq (by decide), by decide⟩

theorem witness_OutputIsNeverReadBack :
    step (placed 0 0x73 [(10, 10)]) = .next (nextOf (step (placed 0 0x73 [(10, 10)]))) := nextOf_eq (by decide)

theorem witness_CanonicalMemoriesThatReadAlikeAreEqual :
    Memory.wf [(5, 1)] = true ∧ Memory.wf (Memory.write (Memory.write [(5, 1)] 9 2) 9 0) = true ∧
      ∀ a, Memory.read [(5, 1)] a = Memory.read (Memory.write (Memory.write [(5, 1)] 9 2) 9 0) a :=
  ⟨by decide, by decide, fun _ => rfl⟩

/-- The last address of each width. -/
theorem witness_LoadsInBoundsReadTheirBytes :
    uint (effectiveAddress (at' 0 [(1, 0x1000)] []) 1 (immI 0xFFF)) + 1 = 0x1000 ∧
      uint (effectiveAddress (at' 0 [(1, 0x1000)] []) 1 (immI 0xFFE)) + 2 = 0x1000 ∧
      uint (effectiveAddress (at' 0 [(1, 0x1000)] []) 1 (immI 0xFFC)) + 4 = 0x1000 ∧
      (at' 0 [(1, 0x1000)] []).cfg.memorySpace = 0x1000 := by decide

theorem witness_StoresInBoundsWriteTheLowBytes :
    uint (effectiveAddress (at' 0 [(1, 0xFFF)] []) 1 (immS 0)) + 1 = 0x1000 ∧
      uint (effectiveAddress (at' 0 [(1, 0xFFF)] []) 1 (immS 0xFFF)) + 2 = 0x1000 ∧
      uint (effectiveAddress (at' 0 [(1, 0xFFF)] []) 1 (immS 0xFFD)) + 4 = 0x1000 ∧
      (at' 0 [(1, 0xFFF)] []).cfg.memorySpace = 0x1000 := by decide

/-- The first address out of bounds of each width, for all six instructions. -/
theorem witness_OutOfBoundsAccessesHalt :
    [Instr.lb 3 1 0, .lh 3 1 0xFFF, .lw 3 1 0xFFD, .sb 1 2 0, .sh 1 2 0xFFF, .sw 1 2 0xFFD].map
        (dataAccess (at' 0 [(1, 0x1000)] [])) =
      [some (0x1000, .byte, .load), some (0xFFF, .half, .load), some (0xFFD, .word, .load),
        some (0x1000, .byte, .store), some (0xFFF, .half, .store), some (0xFFD, .word, .store)] ∧
      (at' 0 [(1, 0x1000)] []).cfg.memorySpace < 0x1000 + AccessWidth.byte.bytes ∧
      (at' 0 [(1, 0x1000)] []).cfg.memorySpace < 0xFFF + AccessWidth.half.bytes ∧
      (at' 0 [(1, 0x1000)] []).cfg.memorySpace < 0xFFD + AccessWidth.word.bytes := by decide

/-- x1 = 0xFFF and x2 = 0x87654321 before a store. -/
def beforeStore : State := at' 0 [(1, 0xFFF), (2, 0x87654321)] []

/-- The state after a store at the last address of its width stands for both `t` and `u`. -/
theorem witness_StoreThenLoadRoundTrips_byte :
    exec (.sb 1 2 0) beforeStore = .next (nextOf (exec (.sb 1 2 0) beforeStore)) ∧
      effectiveAddress beforeStore 1 (immS 0) = 0xFFF ∧
      effectiveAddress (nextOf (exec (.sb 1 2 0) beforeStore)) 1 (immI 0) = 0xFFF ∧
      (nextOf (exec (.sb 1 2 0) beforeStore)).cfg = beforeStore.cfg ∧ beforeStore.cfg.memorySpace = 0x1000 :=
  ⟨nextOf_eq (by decide), by decide⟩

theorem witness_StoreThenLoadRoundTrips_half :
    exec (.sh 1 2 0xFFF) beforeStore = .next (nextOf (exec (.sh 1 2 0xFFF) beforeStore)) ∧
      effectiveAddress beforeStore 1 (immS 0xFFF) = 0xFFE ∧
      effectiveAddress (nextOf (exec (.sh 1 2 0xFFF) beforeStore)) 1 (immI 0xFFF) = 0xFFE ∧
      (nextOf (exec (.sh 1 2 0xFFF) beforeStore)).cfg = beforeStore.cfg ∧ beforeStore.cfg.memorySpace = 0x1000 :=
  ⟨nextOf_eq (by decide), by decide⟩

theorem witness_StoreThenLoadRoundTrips_word :
    exec (.sw 1 2 0xFFD) beforeStore = .next (nextOf (exec (.sw 1 2 0xFFD) beforeStore)) ∧
      effectiveAddress beforeStore 1 (immS 0xFFD) = 0xFFC ∧
      effectiveAddress (nextOf (exec (.sw 1 2 0xFFD) beforeStore)) 1 (immI 0xFFD) = 0xFFC ∧
      (nextOf (exec (.sw 1 2 0xFFD) beforeStore)).cfg = beforeStore.cfg ∧ beforeStore.cfg.memorySpace = 0x1000 :=
  ⟨nextOf_eq (by decide), by decide⟩

theorem witness_DivAndRemDivideTowardZero :
    (sint (0xFFFFFFF9 : Word) = -7 ∧ sint (0x00000002 : Word) = 2) ∧
      (sint (0x80000000 : Word) = -2 ^ 31 ∧ sint (0xFFFFFFFF : Word) = -1) ∧ sint (0x00000000 : Word) = 0 := by decide

theorem witness_MacAccumulates : (0x00 : BitVec 7) ∉ classOpcodes ∧ (0x7F : BitVec 7) ∉ classOpcodes := by decide

theorem witness_AlternateFormsActAsTheirNamesakes :
    (0x0B : BitVec 7) ∉ classOpcodes ∧
      (Instr.altAnd 31 0 31 0x7F, Instr.and 31 0 31 0x7F, wordR 0x7F 31 0 7 31 0x0B) ∈
        [(Instr.altAnd 31 0 31 0x7F, Instr.and 31 0 31 0x7F, wordR 0x7F 31 0 7 31 0x0B)] := by decide

theorem witness_ImmediateLogicActsBitwise :
    ∀ k, (fun k => if k < 12 then (0x800 : BitVec 12).getLsbD k else (0x800 : BitVec 12).getLsbD 11) k =
      if k < 12 then (0x800 : BitVec 12).getLsbD k else (0x800 : BitVec 12).getLsbD 11 := fun _ => rfl

theorem witness_ImmediateShiftsMoveBitsByTheWholeAmount :
    ((0xFFFFFFFF : Nat) : Int) = (0xFFF : BitVec 12).toInt % 2 ^ 32 ∧
      ((31 : Nat) : Int) = (31 : BitVec 12).toInt % 2 ^ 32 ∧
      ((32 : Nat) : Int) = (32 : BitVec 12).toInt % 2 ^ 32 := by decide

/-- Registers that differ at bit 16 only, and registers that differ at bit 15 only. -/
theorem witness_BranchesCompareTheLowSixteenBits :
    uint ((at' 0 [(1, 0x00010000)] []).getReg 1) % 2 ^ 16 = uint ((at' 0 [(1, 0x00010000)] []).getReg 2) % 2 ^ 16 ∧
      uint ((at' 0 [(1, 0x00008000)] []).getReg 1) % 2 ^ 16 ≠
        uint ((at' 0 [(1, 0x00008000)] []).getReg 2) % 2 ^ 16 ∧
      (0x1000 : BitVec 13).getLsbD 0 = false := by decide

theorem witness_JalLinksAndJumps : (0x100000 : BitVec 21).getLsbD 0 = false := by decide

theorem witness_OffsetsSpanTheirWholeRange :
    ((-4096 : Int) % 2 = 0 ∧ (4094 : Int) % 2 = 0) ∧ ((-1048576 : Int) % 2 = 0 ∧ (1048574 : Int) % 2 = 0) ∧
      uint (State.reset.getReg 1) % 2 ^ 16 = uint (State.reset.getReg 2) % 2 ^ 16 := by decide

theorem witness_EcallPrintsACharacter : (at' 0 [(10, 11)] []).getReg 10 = 11 := by decide
theorem witness_EcallPrintsTheSignedDecimal : (at' 0 [(10, 1), (11, 0x80000000)] []).getReg 10 = 1 := by decide
theorem witness_EcallPrintsTheBoundedString :
    (at' 0 [(10, 4), (11, 0xFFF)] [(0xFFF, 0x41)]).getReg 10 = 4 := by decide
theorem witness_EcallExitHaltsWithTheBanner : (at' 0 [(10, 10)] []).getReg 10 = 10 := by decide
theorem witness_EcallIllegalCodeHalts :
    (at' 0 [(10, 12)] []).getReg 10 ≠ 1 ∧ (at' 0 [(10, 12)] []).getReg 10 ≠ 4 ∧
      (at' 0 [(10, 12)] []).getReg 10 ≠ 10 ∧ (at' 0 [(10, 12)] []).getReg 10 ≠ 11 := by decide
theorem witness_EcallReadsOnlyA0AndA1 :
    (at' 0 [(5, 9), (10, 1), (11, 2)] []).regs[10] = (at' 0 [(10, 1), (11, 2)] []).getReg 10 ∧
      (at' 0 [(5, 9), (10, 1), (11, 2)] []).regs[11] = (at' 0 [(10, 1), (11, 2)] []).getReg 11 := by decide

end Sys2Proof.Tests
end

/-! PROOF. The statements about the register-register operations, the register-immediate operations and LUI
(40_alu.md). Each is two facts per instruction: it ends in `writeBack` with a word whose value a lemma of the
arithmetic gives, and its word decodes to it whatever the alternate opcode. -/

namespace Sys2Proof.Machine

/-! ## Words of the arithmetic/logical unit -/

/-- A word with opcode 0x33 is the standard instruction of the row its funct3 and funct7 select (30_encoding.md rule
R73). -/
theorem decodesTo_standardInstr (op : RegOp) {f3 : BitVec 3} {f7 : BitVec 7} (h : selectRegOp f3 f7 = some op)
    (rd rs1 rs2 : RegIdx) : DecodesTo (wordR f7 rs2 rs1 f3 rd 0x33) (standardInstr op rd rs1 rs2 f7) := by
  intro mac _
  rw [decodeWord_wordR (.inl rfl), selectR, h]
  rfl

/-- A word with opcode 0x13 is the instruction its funct3 selects (30_encoding.md rule R75). -/
theorem decodesTo_of_selectImm {rd rs1 : RegIdx} {f3 : BitVec 3} {imm : BitVec 12} {i : Instr}
    (h : selectImm rd rs1 f3 imm = .ok i) : DecodesTo (wordI imm rs1 f3 rd 0x13) i := by
  intro mac hmac
  rw [decodeWord_wordI_imm hmac, h]

/-! ## Values -/

/-- The high and the low word of a product are its quotient and remainder by 2^32, so together the whole product. -/
theorem mulHigh_mulLow_eq_product (a b : Word) :
    sint (mulHigh a b) * 2 ^ 32 + uint (mulLow a b) = sint a * sint b := by
  rw [mulHigh_toInt, mulLow_toNat]
  exact Int.ediv_mul_add_emod ..

/-- Adding the sign-extended immediate as an unsigned word is adding its signed value, modulo 2^32. -/
theorem addWords_immI_toNat (a : Word) (imm : BitVec 12) :
    (uint (addWords a (immI imm)) : Int) = (uint a + imm.toInt) % 2 ^ 32 := by
  rw [addWords_toNat, Int.add_emod, uint_emod_eq_sint_emod (immI imm), ← Int.add_emod, immI_toInt]

/-- Comparing with the sign-extended immediate is comparing with its signed value. -/
theorem setLessThan_immI (a : Word) (imm : BitVec 12) :
    setLessThan a (immI imm) = if sint a < imm.toInt then 1 else 0 := by
  rw [setLessThan, immI_toInt]

/-! ## Register-register operations -/

/-- Settles O29: the values are the remainder and the quotient of the signed product by 2^32. -/
theorem mulAndMulhGiveTheWholeProduct : Obligations.MulAndMulhGiveTheWholeProduct := by
  intro s rd rs1 rs2
  refine ⟨.of_writeBack rfl (mulLow_toNat _ _), .of_writeBack rfl ?_,
    decodesTo_standardInstr .mul rfl rd rs1 rs2, decodesTo_standardInstr .mulh rfl rd rs1 rs2⟩
  exact ⟨mulLow (s.getReg rs1) (s.getReg rs2), mulLow_toNat _ _, mulHigh_mulLow_eq_product _ _⟩

/-- Settles O28, by the values of the wrapped sum and difference. -/
theorem addAndSubWrap : Obligations.AddAndSubWrap := fun _ rd rs1 rs2 =>
  ⟨.of_writeBack rfl (addWords_toNat _ _), .of_writeBack rfl (subWords_toNat _ _),
    decodesTo_standardInstr .addOrMac rfl rd rs1 rs2, decodesTo_standardInstr .sub rfl rd rs1 rs2⟩

/-- Settles O31, by the bits of an exclusive-or and of an or of words. -/
theorem xorAndOrActBitwise : Obligations.XorAndOrActBitwise := fun _ rd rs1 rs2 =>
  ⟨.of_writeBack rfl fun _ _ => BitVec.getLsbD_xor, .of_writeBack rfl fun _ _ => BitVec.getLsbD_or,
    decodesTo_standardInstr .xor rfl rd rs1 rs2, decodesTo_standardInstr .or rfl rd rs1 rs2⟩

/-! ## Register-immediate operations and LUI -/

/-- Settles O38: the bits named are those of the sign-extended immediate. -/
theorem immediateLogicActsBitwise : Obligations.ImmediateLogicActsBitwise := by
  intro s rd rs1 imm bit hbit
  have himm : ∀ k < 32, (immI imm).getLsbD k = bit k := fun k hk => by rw [immI_bit imm k hk, hbit k]
  refine ⟨.of_writeBack rfl fun k hk => ?xori, .of_writeBack rfl fun k hk => ?ori,
    .of_writeBack rfl fun k hk => ?andi, decodesTo_of_selectImm rfl, decodesTo_of_selectImm rfl,
    decodesTo_of_selectImm rfl⟩
  case xori => rw [← himm k hk]; exact BitVec.getLsbD_xor
  case ori => rw [← himm k hk]; exact BitVec.getLsbD_or
  case andi => rw [← himm k hk]; exact BitVec.getLsbD_and

/-- Settles O36, by the value of the sum with the sign-extended immediate. -/
theorem addiAddsTheSignedImmediate : Obligations.AddiAddsTheSignedImmediate := fun _ _ _ imm =>
  ⟨.of_writeBack rfl (addWords_immI_toNat _ imm), decodesTo_of_selectImm rfl⟩

/-- Settles O37, by the comparison with the sign-extended immediate. -/
theorem sltiComparesSigned : Obligations.SltiComparesSigned := fun _ _ _ imm =>
  ⟨.of_writeBack rfl (setLessThan_immI _ imm), decodesTo_of_selectImm rfl⟩

/-- Settles O40, by the value of the immediate above twelve zero bits. -/
theorem luiWritesTheUpperBits : Obligations.LuiWritesTheUpperBits := fun _ rd imm =>
  ⟨.of_writeBack rfl (immU_toNat imm), fun _ hmac => decodeWord_wordU hmac imm rd⟩

end Sys2Proof.Machine

/-! PROOF. The statement about the branches (41_control.md). A branch sets the program counter to itself plus the signed
offset or plus 4, so each of its two ends is a jump by a signed distance. -/

namespace Sys2Proof.Machine

/-! ## Words of the branches -/

/-- A branch word of an even offset is the instruction its funct3 selects (30_encoding.md rule R78). -/
theorem decodesTo_of_selectBranch {rs1 rs2 : RegIdx} {f3 : BitVec 3} {offset : BitVec 13} {i : Instr}
    (heven : offset.getLsbD 0 = false) (h : selectBranch rs1 rs2 f3 offset = .ok i) :
    DecodesTo (wordB offset rs2 rs1 f3 0x63) i := by
  intro mac hmac
  rw [decodeWord_wordB hmac _ _ _ _ heven, h]

/-! ## Jumps by a signed distance -/

/-- An instruction that only adds a word to the program counter jumps by the word's signed value. -/
theorem CompletesJumping.of_setPc_add {i : Instr} {s : State} {distance : Word}
    (h : exec i s = .next (s.setPc (s.pc + distance))) : CompletesJumping i s (uint s.pc + sint distance) :=
  ⟨_, h, add_toNat_eq s.pc distance, keepsRegistersAndMemory_setPc _ _, rfl, rfl⟩

/-- The end of a taken branch. -/
theorem CompletesJumping.of_setPc_add_immB {i : Instr} {s : State} {offset : BitVec 13}
    (h : exec i s = .next (s.setPc (s.pc + immB offset))) : CompletesJumping i s (uint s.pc + offset.toInt) :=
  immB_toInt offset ▸ .of_setPc_add h

/-- The end of a branch that is not taken. -/
theorem CompletesJumping.of_advance {i : Instr} {s : State} (h : exec i s = .next s.advance) :
    CompletesJumping i s (uint s.pc + 4) :=
  .of_setPc_add (distance := 4) h

/-! ## BEQ and BNE -/

theorem exec_beq (rs1 rs2 : RegIdx) (offset : BitVec 13) (s : State) :
    exec (.beq rs1 rs2 offset) s =
      .next (if uint (s.getReg rs1) % 2 ^ 16 = uint (s.getReg rs2) % 2 ^ 16 then s.setPc (s.pc + immB offset)
        else s.advance) := by
  simp only [exec, execBeq, equalLow16_eq, decide_eq_true_eq]

theorem exec_bne (rs1 rs2 : RegIdx) (offset : BitVec 13) (s : State) :
    exec (.bne rs1 rs2 offset) s =
      .next (if uint (s.getReg rs1) % 2 ^ 16 = uint (s.getReg rs2) % 2 ^ 16 then s.advance
        else s.setPc (s.pc + immB offset)) := by
  simp only [exec, execBne, equalLow16_eq, decide_eq_true_eq]

/-- Settles O41: the comparison of the low halves chooses which of the two ends each branch has. -/
theorem branchesCompareTheLowSixteenBits : Obligations.BranchesCompareTheLowSixteenBits := by
  intro s rs1 rs2 offset
  refine ⟨fun hagree => ⟨.of_setPc_add_immB ?beqTaken, .of_advance ?bneNotTaken⟩,
    fun hdiffer => ⟨.of_advance ?beqNotTaken, .of_setPc_add_immB ?bneTaken⟩,
    fun heven => ⟨decodesTo_of_selectBranch heven rfl, decodesTo_of_selectBranch heven rfl⟩⟩
  case beqTaken => rw [exec_beq, if_pos hagree]
  case bneNotTaken => rw [exec_bne, if_pos hagree]
  case beqNotTaken => rw [exec_beq, if_neg hdiffer]
  case bneTaken => rw [exec_bne, if_neg hdiffer]

end Sys2Proof.Machine

/-! PROOF. The statement about service 11 of the system call (43_system.md). A service that returns appends its items to
the output and advances. -/

namespace Sys2Proof.Machine

/-- A service that returns changes nothing but the output and the program counter. -/
theorem CompletesPrinting.of_emit_advance {i : Instr} {s : State} {items : List OutItem}
    (h : exec i s = .next (s.emit items).advance) : CompletesPrinting i s items :=
  ⟨_, h, rfl, rfl, rfl, keepsRegistersAndMemory_setPc _ _⟩

/-- Code 11 prints the low byte of a1. -/
theorem exec_ecall_printCharacter (b : BitVec 25) {s : State} (hcode : s.getReg 10 = 11) :
    exec (.ecall b) s = .next (s.emit [.byte ((s.getReg 11).setWidth 8)]).advance := by
  rw [exec_ecall, hcode, BitVec.setWidth_eq_extractLsb' (by decide)]
  rfl

/-- Settles O44, by the service code 11 selects. -/
theorem ecallPrintsACharacter : Obligations.EcallPrintsACharacter := fun b _ hcode =>
  .of_emit_advance (exec_ecall_printCharacter b hcode)

end Sys2Proof.Machine

/-! PROOF. The statement about the codes that select no service of the system call (60_exceptions.md). -/

namespace Sys2Proof.Machine

/-- A code that selects no service only halts, with the code as the reason's argument. -/
theorem exec_ecall_illegal (b : BitVec 25) {s : State} (hnotInteger : s.getReg 10 ≠ 1)
    (hnotString : s.getReg 10 ≠ 4) (hnotExit : s.getReg 10 ≠ 10) (hnotCharacter : s.getReg 10 ≠ 11) :
    exec (.ecall b) s = .next (s.haltWith (.illegalServiceCall (s.getReg 10))) := by
  rw [exec_ecall, if_neg hnotInteger, if_neg hnotString, if_neg hnotExit, if_neg hnotCharacter]

/-- Settles O48: no service is selected, and halting writes the status alone. -/
theorem ecallIllegalCodeHalts : Obligations.EcallIllegalCodeHalts :=
  fun b _ => exec_ecall_illegal b

end Sys2Proof.Machine

/-! PROOF. The statements about the decoder and the encoder (30_encoding.md). The round trip has three layers: a word is
the layout of its own fields, each class's table sends its row to the instruction that encodes with that row's values,
and the opcode chooses the class. -/

namespace Sys2Proof.Machine

/-! ## A word is the layout of its fields (30_encoding.md rules R62 and R64) -/

theorem wordR_fields (w : Word) :
    wordR (funct7Field w) (rs2Field w) (rs1Field w) (funct3Field w) (rdField w) (opcodeField w) = w := by
  apply BitVec.eq_of_getLsbD_eq
  intro k hk
  simp only [wordR, funct7Field, rs2Field, rs1Field, funct3Field, rdField, opcodeField, regBits_regOf,
    BitVec.getLsbD_cast, BitVec.getLsbD_append, BitVec.getLsbD_extractLsb']
  grind

theorem wordI_fields (w : Word) :
    wordI (immIField w) (rs1Field w) (funct3Field w) (rdField w) (opcodeField w) = w := by
  apply BitVec.eq_of_getLsbD_eq
  intro k hk
  simp only [wordI, immIField, rs1Field, funct3Field, rdField, opcodeField, regBits_regOf, BitVec.getLsbD_cast,
    BitVec.getLsbD_append, BitVec.getLsbD_extractLsb']
  grind

theorem wordS_fields (w : Word) :
    wordS (immSField w) (rs2Field w) (rs1Field w) (funct3Field w) (opcodeField w) = w := by
  apply BitVec.eq_of_getLsbD_eq
  intro k hk
  simp only [wordS, immSField, rs2Field, rs1Field, funct3Field, opcodeField, regBits_regOf, BitVec.getLsbD_cast,
    BitVec.getLsbD_append, BitVec.getLsbD_extractLsb']
  grind

theorem wordB_fields (w : Word) :
    wordB (immBField w) (rs2Field w) (rs1Field w) (funct3Field w) (opcodeField w) = w := by
  apply BitVec.eq_of_getLsbD_eq
  intro k hk
  simp only [wordB, immBField, rs2Field, rs1Field, funct3Field, opcodeField, regBits_regOf, BitVec.getLsbD_cast,
    BitVec.getLsbD_append, BitVec.getLsbD_extractLsb']
  grind

theorem wordU_fields (w : Word) : wordU (immUField w) (rdField w) (opcodeField w) = w := by
  apply BitVec.eq_of_getLsbD_eq
  intro k hk
  simp only [wordU, immUField, rdField, opcodeField, regBits_regOf, BitVec.getLsbD_cast, BitVec.getLsbD_append,
    BitVec.getLsbD_extractLsb']
  grind

theorem wordJ_fields (w : Word) : wordJ (immJField w) (rdField w) (opcodeField w) = w := by
  apply BitVec.eq_of_getLsbD_eq
  intro k hk
  simp only [wordJ, immJField, rdField, opcodeField, regBits_regOf, BitVec.getLsbD_cast, BitVec.getLsbD_append,
    BitVec.getLsbD_extractLsb']
  grind

/-- Bit 0 of every encoded branch offset is zero (30_encoding.md rule R68). -/
theorem immBField_even (w : Word) : (immBField w).getLsbD 0 = false := by
  rw [immBField, BitVec.getLsbD_cast, BitVec.getLsbD_append]
  rfl

/-- Bit 0 of every encoded jump offset is zero (30_encoding.md rule R70). -/
theorem immJField_even (w : Word) : (immJField w).getLsbD 0 = false := by
  rw [immJField, BitVec.getLsbD_cast, BitVec.getLsbD_append]
  rfl

/-- The bits of a system-call word that its record holds are instr[31:7]. -/
theorem ecallBits_fields (w : Word) :
    ecallBits (rdField w) (rs1Field w) (funct3Field w) (immIField w) = w.extractLsb' 7 25 := by
  apply BitVec.eq_of_getLsbD_eq
  intro k hk
  simp only [ecallBits, immIField, rs1Field, funct3Field, rdField, regBits_regOf, BitVec.getLsbD_cast,
    BitVec.getLsbD_append, BitVec.getLsbD_extractLsb']
  grind

/-- instr[31:7] and the opcode make up the word. -/
theorem extract_append_opcodeField (w : Word) : (w.extractLsb' 7 25 ++ opcodeField w).cast rfl = w := by
  apply BitVec.eq_of_getLsbD_eq
  intro k hk
  simp only [opcodeField, BitVec.getLsbD_cast, BitVec.getLsbD_append, BitVec.getLsbD_extractLsb']
  grind

theorem extractLsb'_encode_ecall (mac : BitVec 7) (ignored : BitVec 25) :
    (encode mac (.ecall ignored)).extractLsb' 7 25 = ignored := by
  apply BitVec.eq_of_getLsbD_eq
  intro k hk
  simp only [encode, BitVec.getLsbD_cast, BitVec.getLsbD_append, BitVec.getLsbD_extractLsb']
  grind

/-! ## The tables: what is selected encodes with the values that selected it (30_encoding.md rules R73 to R78) -/

/-- `i` is well formed and `w` is its word. -/
def EncodesTo (mac : BitVec 7) (i : Instr) (w : Word) : Prop := i.wf = true ∧ encode mac i = w

section

variable {mac : BitVec 7} {w : Word} {i : Instr} {rd rs1 rs2 : RegIdx} {f3 : BitVec 3} {f7 : BitVec 7} {op : RegOp}

/-- A row's standard and alternate instructions encode with the funct3 and funct7 that select the row. -/
theorem encodesTo_of_selectRegOp (h : selectRegOp f3 f7 = some op) :
    EncodesTo mac (standardInstr op rd rs1 rs2 f7) (wordR f7 rs2 rs1 f3 rd 0x33) ∧
      EncodesTo mac (alternateInstr op rd rs1 rs2 f7) (wordR f7 rs2 rs1 f3 rd mac) := by
  unfold selectRegOp at h
  split_ifs at h
  all_goals
    obtain rfl := Option.some.inj h
    subst_vars
    exact ⟨⟨rfl, rfl⟩, rfl, rfl⟩

theorem encodesTo_of_selectR {op : BitVec 7} (hop : op = 0x33 ∨ op = mac)
    (h : selectR op rd rs1 rs2 f3 f7 = .ok i) : EncodesTo mac i (wordR f7 rs2 rs1 f3 rd op) := by
  unfold selectR at h
  split at h
  next row hrow =>
    obtain rfl := Except.ok.inj h
    obtain ⟨hstandard, halternate⟩ := encodesTo_of_selectRegOp hrow
    by_cases hop33 : op = 0x33
    · rw [if_pos hop33, hop33]
      exact hstandard
    · rw [if_neg hop33, hop.resolve_left hop33]
      exact halternate
  next => cases h

theorem encodesTo_of_selectImm {imm : BitVec 12} (h : selectImm rd rs1 f3 imm = .ok i) :
    EncodesTo mac i (wordI imm rs1 f3 rd 0x13) := by
  unfold selectImm at h
  split_ifs at h
  all_goals
    obtain rfl := Except.ok.inj h
    subst f3
    exact ⟨rfl, rfl⟩

theorem encodesTo_of_selectLoad {imm : BitVec 12} (h : selectLoad rd rs1 f3 imm = .ok i) :
    EncodesTo mac i (wordI imm rs1 f3 rd 0x03) := by
  unfold selectLoad at h
  split_ifs at h
  all_goals
    obtain rfl := Except.ok.inj h
    subst f3
    exact ⟨rfl, rfl⟩

theorem encodesTo_of_selectStore {imm : BitVec 12} (h : selectStore rs1 rs2 f3 imm = .ok i) :
    EncodesTo mac i (wordS imm rs2 rs1 f3 0x23) := by
  unfold selectStore at h
  split_ifs at h
  all_goals
    obtain rfl := Except.ok.inj h
    subst f3
    exact ⟨rfl, rfl⟩

theorem encodesTo_of_selectBranch {offset : BitVec 13} (heven : offset.getLsbD 0 = false)
    (h : selectBranch rs1 rs2 f3 offset = .ok i) : EncodesTo mac i (wordB offset rs2 rs1 f3 0x63) := by
  unfold selectBranch at h
  split_ifs at h
  all_goals
    obtain rfl := Except.ok.inj h
    subst f3
    exact ⟨by rw [Instr.wf, heven]; rfl, rfl⟩

/-! ## The class of a word -/

/-- The class of a word, which its opcode chooses, with what the decoder makes of the class's fields
(30_encoding.md rules R63 and R65). -/
inductive WordClass (mac : BitVec 7) (w : Word) : Prop where
  | registerRegister (hop : opcodeField w = 0x33 ∨ opcodeField w = mac)
      (hd : decodeWord mac w =
        selectR (opcodeField w) (rdField w) (rs1Field w) (rs2Field w) (funct3Field w) (funct7Field w))
  | registerImmediate (hop : opcodeField w = 0x13)
      (hd : decodeWord mac w = selectImm (rdField w) (rs1Field w) (funct3Field w) (immIField w))
  | load (hop : opcodeField w = 0x03)
      (hd : decodeWord mac w = selectLoad (rdField w) (rs1Field w) (funct3Field w) (immIField w))
  | system (hop : opcodeField w = 0x73) (hd : decodeWord mac w = .ok (.ecall (w.extractLsb' 7 25)))
  | store (hop : opcodeField w = 0x23)
      (hd : decodeWord mac w = selectStore (rs1Field w) (rs2Field w) (funct3Field w) (immSField w))
  | branch (hop : opcodeField w = 0x63)
      (hd : decodeWord mac w = selectBranch (rs1Field w) (rs2Field w) (funct3Field w) (immBField w))
  | upper (hop : opcodeField w = 0x37) (hd : decodeWord mac w = .ok (.lui (rdField w) (immUField w)))
  | jump (hop : opcodeField w = 0x6F) (hd : decodeWord mac w = .ok (.jal (rdField w) (immJField w)))
  | unknown (hop : opcodeField w ∉ classOpcodes ∧ opcodeField w ≠ mac)
      (hd : decodeWord mac w = .error .unknownOpcode)

theorem wordClass (mac : BitVec 7) (w : Word) : WordClass mac w := by
  have hdecode : decodeWord mac w = select (decodeFields mac w) := rfl
  simp only [decodeFields] at hdecode
  split_ifs at hdecode with hr hi hs hb hu hj
  · exact .registerRegister hr hdecode
  · rcases hi with hop | hop | hop
    · exact .registerImmediate hop (by rw [hdecode, select, if_pos hop])
    · exact .load hop (by rw [hdecode, select, hop]; rfl)
    · exact .system hop (by rw [hdecode, select, hop, ecallBits_fields]; rfl)
  · exact .store hs hdecode
  · exact .branch hb hdecode
  · exact .upper hu hdecode
  · exact .jump hj hdecode
  · refine .unknown ⟨fun hmem => ?_, fun hmac => hr (.inr hmac)⟩ hdecode
    simp only [classOpcodes, List.mem_cons, List.not_mem_nil, or_false] at hmem
    tauto

/-! ## The round trip, in both directions -/

/-- What a word decodes to is well formed and encodes to the word, for every alternate opcode. -/
theorem encodesTo_of_decodeWord (h : decodeWord mac w = .ok i) : EncodesTo mac i w := by
  cases wordClass mac w with
  | registerRegister hop hd => exact wordR_fields w ▸ encodesTo_of_selectR hop (hd ▸ h)
  | registerImmediate hop hd => exact wordI_fields w ▸ hop ▸ encodesTo_of_selectImm (hd ▸ h)
  | load hop hd => exact wordI_fields w ▸ hop ▸ encodesTo_of_selectLoad (hd ▸ h)
  | system hop hd =>
    obtain rfl := Except.ok.inj (hd.symm.trans h)
    have hword := extract_append_opcodeField w
    rw [hop] at hword
    exact ⟨rfl, hword⟩
  | store hop hd => exact wordS_fields w ▸ hop ▸ encodesTo_of_selectStore (hd ▸ h)
  | branch hop hd => exact wordB_fields w ▸ hop ▸ encodesTo_of_selectBranch (immBField_even w) (hd ▸ h)
  | upper hop hd =>
    obtain rfl := Except.ok.inj (hd.symm.trans h)
    exact ⟨rfl, (congrArg (wordU _ _) hop.symm).trans (wordU_fields w)⟩
  | jump hop hd =>
    obtain rfl := Except.ok.inj (hd.symm.trans h)
    exact ⟨by rw [Instr.wf, immJField_even]; rfl, (congrArg (wordJ _ _) hop.symm).trans (wordJ_fields w)⟩
  | unknown _ hd => cases hd.symm.trans h

/-- A word with the alternate opcode is the alternate instruction of the row its funct3 and funct7 select
(30_encoding.md rule R74). -/
theorem decodeWord_alternateInstr (hmac : mac ∉ classOpcodes) (h : selectRegOp f3 f7 = some op) :
    decodeWord mac (wordR f7 rs2 rs1 f3 rd mac) = .ok (alternateInstr op rd rs1 rs2 f7) := by
  obtain ⟨_, _, _, h33, _⟩ := ne_of_notMem_classOpcodes hmac
  rw [decodeWord_wordR (.inr rfl), selectR, h]
  exact congrArg Except.ok (if_neg h33.symm)

/-- A word with opcode 0x73 is the system call (30_encoding.md rule R79). -/
theorem decodeWord_of_opcode_system (hmac : mac ∉ classOpcodes) (hop : opcodeField w = 0x73) :
    decodeWord mac w = .ok (.ecall (w.extractLsb' 7 25)) := by
  simp [decodeWord, decodeFields, select, hop, ecallBits_fields, ne_of_notMem_classOpcodes hmac]

/-- A word with opcode 0x03 is the load its funct3 selects (30_encoding.md rule R76). -/
theorem decodesTo_of_selectLoad {imm : BitVec 12} (h : selectLoad rd rs1 f3 imm = .ok i) :
    DecodesTo (wordI imm rs1 f3 rd 0x03) i := by
  intro mac hmac
  rw [decodeWord_wordI_load hmac, h]

/-- A word with opcode 0x23 is the store its funct3 selects (30_encoding.md rule R77). -/
theorem decodesTo_of_selectStore {imm : BitVec 12} (h : selectStore rs1 rs2 f3 imm = .ok i) :
    DecodesTo (wordS imm rs2 rs1 f3 0x23) i := by
  intro mac hmac
  rw [decodeWord_wordS hmac, h]

/-! ## Invalid words (30_encoding.md rule R80) -/

theorem selectRegOp_eq_none_iff : selectRegOp f3 f7 = none ↔ ¬ ListedRow f3 f7 := by
  unfold selectRegOp ListedRow
  split_ifs <;> simp_all

/-- Case (b). -/
theorem selectR_rejects_iff {op : BitVec 7} :
    (∀ i, selectR op rd rs1 rs2 f3 f7 ≠ .ok i) ↔ ¬ ListedRow f3 f7 := by
  rw [← selectRegOp_eq_none_iff, selectR]
  cases selectRegOp f3 f7 <;> simp

theorem funct3_cases (f3 : BitVec 3) :
    f3 = 0 ∨ f3 = 1 ∨ f3 = 2 ∨ f3 = 3 ∨ f3 = 4 ∨ f3 = 5 ∨ f3 = 6 ∨ f3 = 7 := by
  revert f3
  decide

/-- Case (c). -/
theorem selectImm_rejects_iff {imm : BitVec 12} : (∀ i, selectImm rd rs1 f3 imm ≠ .ok i) ↔ f3 = 3 := by
  rcases funct3_cases f3 with rfl | rfl | rfl | rfl | rfl | rfl | rfl | rfl <;> simp [selectImm]

/-- Case (d). -/
theorem selectLoad_rejects_iff {imm : BitVec 12} :
    (∀ i, selectLoad rd rs1 f3 imm ≠ .ok i) ↔ f3 ∈ [3, 4, 5, 6, 7] := by
  rcases funct3_cases f3 with rfl | rfl | rfl | rfl | rfl | rfl | rfl | rfl <;> simp [selectLoad]

/-- Case (e). -/
theorem selectStore_rejects_iff {imm : BitVec 12} :
    (∀ i, selectStore rs1 rs2 f3 imm ≠ .ok i) ↔ f3 ∈ [3, 4, 5, 6, 7] := by
  rcases funct3_cases f3 with rfl | rfl | rfl | rfl | rfl | rfl | rfl | rfl <;> simp [selectStore]

/-- Case (f). -/
theorem selectBranch_rejects_iff {imm : BitVec 13} :
    (∀ i, selectBranch rs1 rs2 f3 imm ≠ .ok i) ↔ f3 ∈ [2, 3, 4, 5, 6, 7] := by
  rcases funct3_cases f3 with rfl | rfl | rfl | rfl | rfl | rfl | rfl | rfl <;> simp [selectBranch]

/-- A word is rejected exactly in the six cases: its class leaves one of them. -/
theorem rejects_iff_invalidWord (hmac : mac ∉ classOpcodes) :
    (∀ i, decodeWord mac w ≠ .ok i) ↔ InvalidWord mac w := by
  have hne := ne_of_notMem_classOpcodes hmac
  cases wordClass mac w with
  | registerRegister hop hd =>
    rw [hd, selectR_rejects_iff]
    rcases hop with hop | hop <;> rw [opcodeField] at hop
    · simp [InvalidWord, funct3Field, funct7Field, hop, classOpcodes]
    · simp [InvalidWord, funct3Field, funct7Field, hop, hmac, hne, eq_comm (a := mac)]
  | registerImmediate hop hd =>
    rw [opcodeField] at hop
    rw [hd, selectImm_rejects_iff]
    simp [InvalidWord, funct3Field, hop, hne, classOpcodes]
  | load hop hd =>
    rw [opcodeField] at hop
    rw [hd, selectLoad_rejects_iff]
    simp [InvalidWord, funct3Field, hop, hne, classOpcodes]
  | store hop hd =>
    rw [opcodeField] at hop
    rw [hd, selectStore_rejects_iff]
    simp [InvalidWord, funct3Field, hop, hne, classOpcodes]
  | branch hop hd =>
    rw [opcodeField] at hop
    rw [hd, selectBranch_rejects_iff]
    simp [InvalidWord, funct3Field, hop, hne, classOpcodes]
  | system hop hd | upper hop hd | jump hop hd =>
    rw [opcodeField] at hop
    simp [InvalidWord, hd, hop, hne, classOpcodes]
  | unknown hop hd => exact iff_of_true (by simp [hd]) (.inl hop)

/-- A running core that fetches a rejected word halts with it and changes nothing else. -/
theorem step_of_rejected {s : State} (hr : s.status = .running) (hb : uint s.pc + 4 ≤ s.cfg.memorySpace)
    (hrej : ∀ i, decodeWord s.cfg.macOpcode s.wordAtPc ≠ .ok i) :
    step s = .next (s.haltWith (.invalidInstruction s.wordAtPc)) := by
  rcases step_running hr with ⟨hout, _⟩ | ⟨_, _, h⟩ | ⟨i, ⟨_, _, hd⟩, _⟩
  · omega
  · exact h
  · exact absurd hd (hrej i)

end

/-! ## The round trip, the invalid words, the system call and the example words -/

/-- Settles O2, by the class each instruction's word is in. -/
theorem decodeOfEncodeIsTheInstruction : Obligations.DecodeOfEncodeIsTheInstruction := by
  intro mac i hmac hwf
  cases i with
  | add | mul | sub | sll | mulh | slt | xor | div | srl | sra | or | rem | and =>
    exact (decodeWord_wordR (.inl rfl) _ _ _ _ _).trans rfl
  | mac | altMul | altSub | altSll | altMulh | altSlt | altXor | altDiv | altSrl | altSra | altOr | altRem | altAnd =>
    exact (decodeWord_alternateInstr hmac rfl).trans rfl
  | addi | slli | slti | xori | srli | ori | andi => exact decodesTo_of_selectImm rfl mac hmac
  | lui rd imm => exact decodeWord_wordU hmac imm rd
  | beq rs1 rs2 offset | bne rs1 rs2 offset =>
    exact decodesTo_of_selectBranch (by simpa [Instr.wf] using hwf) rfl mac hmac
  | jal rd offset => exact decodeWord_wordJ hmac offset rd (by simpa [Instr.wf] using hwf)
  | lb | lh | lw => exact decodesTo_of_selectLoad rfl mac hmac
  | sb | sh | sw => exact decodesTo_of_selectStore rfl mac hmac
  | ecall ignored =>
    rw [decodeWord_of_opcode_system hmac (Laws.OpcodeField.ecall ignored mac), extractLsb'_encode_ecall]

/-- Settles O3: no class of words loses a bit, whatever the alternate opcode. -/
theorem acceptedWordIsTheEncoding : Obligations.AcceptedWordIsTheEncoding :=
  fun _ _ _ _ => encodesTo_of_decodeWord

/-- Settles O4, class by class, and by the entry point's answer to a rejected word. -/
theorem invalidWordsAreExactlyTheSixCases : Obligations.InvalidWordsAreExactlyTheSixCases :=
  ⟨fun _ _ hmac => rejects_iff_invalidWord hmac,
    fun _ hmac hr hb hinvalid => step_of_rejected hr hb ((rejects_iff_invalidWord hmac).2 hinvalid)⟩

/-- Settles O6: the opcode alone selects the system call, whose meaning does not take the other bits. -/
theorem everyOpcode73WordIsTheSystemCall : Obligations.EveryOpcode73WordIsTheSystemCall :=
  ⟨fun _ hop _ hmac => decodeWord_of_opcode_system hmac hop, fun _ _ _ => rfl⟩

/-- Settles O1, by decoding each of the words. -/
theorem specExampleWordsDecode : Obligations.SpecExampleWordsDecode := by
  unfold Obligations.SpecExampleWordsDecode
  decide

/-! ## Immediates as shifts and masks (30_encoding.md rules R66 to R70) -/

theorem immI_immIField (w : Word) : immI (immIField w) = w.sshiftRight 20 := by
  apply BitVec.eq_of_getLsbD_eq
  intro k hk
  simp only [immI, immIField, BitVec.getLsbD_signExtend, BitVec.msb_eq_getLsbD_last, BitVec.getLsbD_extractLsb',
    BitVec.getLsbD_sshiftRight]
  grind

theorem immS_immSField (w : Word) :
    immS (immSField w) = (w.sshiftRight 25 <<< 5) ||| (w >>> 7 &&& 0x1F) := by
  have hlow : ∀ k < 32, (0x1F : Word).getLsbD k = decide (k < 5) := by decide
  apply BitVec.eq_of_getLsbD_eq
  intro k hk
  simp only [immS, immSField, BitVec.getLsbD_signExtend, BitVec.msb_eq_getLsbD_last, BitVec.getLsbD_extractLsb',
    BitVec.getLsbD_cast, BitVec.getLsbD_append, BitVec.getLsbD_or, BitVec.getLsbD_and, BitVec.getLsbD_shiftLeft,
    BitVec.getLsbD_ushiftRight, BitVec.getLsbD_sshiftRight]
  grind

theorem immB_immBField (w : Word) : immB (immBField w) =
    (w.sshiftRight 31 <<< 12) ||| (w <<< 4 &&& 0x800) ||| (w >>> 20 &&& 0x7E0) ||| (w >>> 7 &&& 0x1E) := by
  have hbit11 : ∀ k < 32, (0x800 : Word).getLsbD k = decide (k = 11) := by decide
  have hmiddle : ∀ k < 32, (0x7E0 : Word).getLsbD k = decide (5 ≤ k ∧ k < 11) := by decide
  have hlow : ∀ k < 32, (0x1E : Word).getLsbD k = decide (1 ≤ k ∧ k < 5) := by decide
  apply BitVec.eq_of_getLsbD_eq
  intro k hk
  simp only [immB, immBField, BitVec.getLsbD_signExtend, BitVec.msb_eq_getLsbD_last, BitVec.getLsbD_extractLsb',
    BitVec.getLsbD_cast, BitVec.getLsbD_append, BitVec.getLsbD_or, BitVec.getLsbD_and, BitVec.getLsbD_shiftLeft,
    BitVec.getLsbD_ushiftRight, BitVec.getLsbD_sshiftRight]
  grind

theorem immU_immUField (w : Word) : immU (immUField w) = w &&& 0xFFFFF000 := by
  have hupper : ∀ k < 32, (0xFFFFF000 : Word).getLsbD k = decide (12 ≤ k) := by decide
  apply BitVec.eq_of_getLsbD_eq
  intro k hk
  simp only [immU, immUField, BitVec.getLsbD_cast, BitVec.getLsbD_append, BitVec.getLsbD_extractLsb',
    BitVec.getLsbD_and]
  grind

theorem immJ_immJField (w : Word) : immJ (immJField w) =
    (w.sshiftRight 31 <<< 20) ||| (w &&& 0xFF000) ||| (w >>> 9 &&& 0x800) ||| (w >>> 20 &&& 0x7FE) := by
  have hupper : ∀ k < 32, (0xFF000 : Word).getLsbD k = decide (12 ≤ k ∧ k < 20) := by decide
  have hbit11 : ∀ k < 32, (0x800 : Word).getLsbD k = decide (k = 11) := by decide
  have hlow : ∀ k < 32, (0x7FE : Word).getLsbD k = decide (1 ≤ k ∧ k < 11) := by decide
  apply BitVec.eq_of_getLsbD_eq
  intro k hk
  simp only [immJ, immJField, BitVec.getLsbD_signExtend, BitVec.msb_eq_getLsbD_last, BitVec.getLsbD_extractLsb',
    BitVec.getLsbD_cast, BitVec.getLsbD_append, BitVec.getLsbD_or, BitVec.getLsbD_and, BitVec.getLsbD_shiftLeft,
    BitVec.getLsbD_ushiftRight, BitVec.getLsbD_sshiftRight]
  grind

/-- Settles O5, one immediate at a time, bit by bit. -/
theorem immediatesAreShiftedFields : Obligations.ImmediatesAreShiftedFields := fun w =>
  ⟨immI_immIField w, immS_immSField w, immB_immBField w, immU_immUField w, immJ_immJField w⟩

end Sys2Proof.Machine

/-! PROOF. The statements about the services 1, 4 and 10 of the system call and about the registers it reads
(43_system.md). -/

namespace Sys2Proof.Machine

/-! ## What each code does -/

/-- Every code selects one of the four services or none. -/
theorem serviceCode_cases (code : Word) :
    code = 1 ∨ code = 4 ∨ code = 10 ∨ code = 11 ∨ (code ≠ 1 ∧ code ≠ 4 ∧ code ≠ 10 ∧ code ≠ 11) := by
  tauto

section

variable (b : BitVec 25) {s : State}

/-- Code 1 prints the signed value of a1. -/
theorem exec_ecall_printInteger (hcode : s.getReg 10 = 1) :
    exec (.ecall b) s = .next (s.emit ((decimalText (sint (s.getReg 11))).map .byte)).advance := by
  rw [exec_ecall, if_pos hcode]

/-- Code 4 prints the string at a1. -/
theorem exec_ecall_printString (hcode : s.getReg 10 = 4) :
    exec (.ecall b) s = .next (s.emit ((s.mem.stringFrom (uint (s.getReg 11))
      (s.cfg.memorySpace - uint (s.getReg 11))).map .byte)).advance := by
  rw [exec_ecall, hcode]
  rfl

/-- Code 10 emits the banner and halts. -/
theorem exec_ecall_exit (hcode : s.getReg 10 = 10) :
    exec (.ecall b) s = .next ((s.emit [.exitBanner]).haltWith .exit) := by
  rw [exec_ecall, hcode]
  rfl

end

/-! ## The statements -/

theorem isDecimalOf_decimalText (i : Int) : IsDecimalOf i (decimalText i) := by
  obtain ⟨hne, hdigits, hvalue, hhead⟩ := decimalDigits_spec (i.natAbs + 1) i.natAbs (Nat.lt_succ_self _)
  exact ⟨_, rfl, hne, hdigits, hvalue, fun h => (hhead h).1⟩

/-- Settles O45: the digits of the magnitude are its decimal text. -/
theorem ecallPrintsTheSignedDecimal : Obligations.EcallPrintsTheSignedDecimal := fun b _ hcode =>
  ⟨_, isDecimalOf_decimalText _, .of_emit_advance (exec_ecall_printInteger b hcode)⟩

/-- Settles O46: the string service prints ends at the first zero byte or with the memory. -/
theorem ecallPrintsTheBoundedString : Obligations.EcallPrintsTheBoundedString := by
  intro b s hcode
  obtain ⟨n, hle, hnonzero, hend, htext⟩ :=
    s.mem.stringFrom_spec (s.cfg.memorySpace - uint (s.getReg 11)) (uint (s.getReg 11))
  refine ⟨n, fun k hk => ⟨by omega, hnonzero k hk⟩, ?_, .of_emit_advance ?_⟩
  · exact hend.imp_left fun _ => by omega
  · rw [exec_ecall_printString b hcode, htext, List.map_map]
    rfl

/-- Settles O47, by the service code 10 selects. -/
theorem ecallExitHaltsWithTheBanner : Obligations.EcallExitHaltsWithTheBanner := fun b _ hcode =>
  ⟨exec_ecall_exit b hcode, rfl⟩

/-- Settles O49, service by service: each reads the code, the argument, memory and parameters only. -/
theorem ecallReadsOnlyA0AndA1 : Obligations.EcallReadsOnlyA0AndA1 := by
  intro b s regs hcode harg
  have hcode' : ({ s with regs := regs } : State).getReg 10 = s.getReg 10 := hcode
  have harg' : ({ s with regs := regs } : State).getReg 11 = s.getReg 11 := harg
  rcases serviceCode_cases (s.getReg 10) with h | h | h | h | ⟨h1, h4, h10, h11⟩
  · exact ⟨_, exec_ecall_printInteger b h, rfl, by rw [exec_ecall_printInteger b (hcode'.trans h), harg']; rfl⟩
  · exact ⟨_, exec_ecall_printString b h, rfl, by rw [exec_ecall_printString b (hcode'.trans h), harg']; rfl⟩
  · exact ⟨_, exec_ecall_exit b h, rfl, exec_ecall_exit b (hcode'.trans h)⟩
  · exact ⟨_, exec_ecall_printCharacter b h, rfl, by rw [exec_ecall_printCharacter b (hcode'.trans h), harg']; rfl⟩
  · refine ⟨_, exec_ecall_illegal b h1 h4 h10 h11, rfl, ?_⟩
    rw [exec_ecall_illegal b (hcode' ▸ h1) (hcode' ▸ h4) (hcode' ▸ h10) (hcode' ▸ h11), hcode']
    rfl

end Sys2Proof.Machine

/-! PROOF. The statements about memory, loads and stores (20_memory.md and 42_loadstore.md). -/

namespace Sys2Proof.Machine

/-! ## Canonical memories (log entry 3) -/

/-- An address below every listed one reads as an unlisted one. -/
theorem Memory.read_of_forall_lt {m : Memory} {a : Nat} (h : ∀ c ∈ m, a < c.1) : m.read a = Memory.unlisted := by
  induction m with
  | nil => rfl
  | cons c rest ih =>
    have hne : c.1 ≠ a := Nat.ne_of_gt (h c List.mem_cons_self)
    rw [Memory.read, if_neg hne]
    exact ih fun d hd => h d (List.mem_cons_of_mem c hd)

/-- The first address of a canonical memory reads as its byte, which an unlisted address does not. -/
theorem Memory.read_head_ne_unlisted {k : Nat} {v : Byte} {rest : Memory} (h : Memory.wf ((k, v) :: rest) = true) :
    Memory.read ((k, v) :: rest) k ≠ Memory.unlisted := by
  rw [Memory.read, if_pos rfl]
  exact (Memory.wf_cons.1 h).1

/-- Of two canonical memories that read alike, the second lists no smaller address than the first one's head. -/
theorem Memory.head_le_of_read_eq {k l : Nat} {v u : Byte} {rest rest' : Memory}
    (hm : Memory.wf ((k, v) :: rest) = true) (hn : Memory.wf ((l, u) :: rest') = true)
    (hread : ∀ a, Memory.read ((k, v) :: rest) a = Memory.read ((l, u) :: rest') a) : l ≤ k := by
  obtain ⟨_, hlt, _⟩ := Memory.wf_cons.1 hn
  by_contra hkl
  refine Memory.read_head_ne_unlisted hm ((hread k).trans (Memory.read_of_forall_lt fun c hc => ?_))
  rcases List.mem_cons.1 hc with rfl | hc
  · exact not_le.1 hkl
  · exact (not_le.1 hkl).trans (hlt c hc)

/-- Settles O22: the heads of the two lists agree, and their tails read alike. -/
theorem canonicalMemoriesThatReadAlikeAreEqual : Obligations.CanonicalMemoriesThatReadAlikeAreEqual := by
  intro m
  induction m with
  | nil =>
    rintro (_ | ⟨⟨l, u⟩, rest'⟩) _ hn hread
    · rfl
    · exact absurd (hread l).symm (Memory.read_head_ne_unlisted hn)
  | cons c rest ih =>
    obtain ⟨k, v⟩ := c
    rintro (_ | ⟨⟨l, u⟩, rest'⟩) hm hn hread
    · exact absurd (hread k) (Memory.read_head_ne_unlisted hm)
    · obtain rfl : k = l := le_antisymm (Memory.head_le_of_read_eq hn hm fun a => (hread a).symm)
        (Memory.head_le_of_read_eq hm hn hread)
      obtain ⟨_, hlt, hrest⟩ := Memory.wf_cons.1 hm
      obtain ⟨_, hlt', hrest'⟩ := Memory.wf_cons.1 hn
      have hhead : v = u := by simpa [Memory.read] using hread k
      have htail : rest = rest' := by
        refine ih rest' hrest hrest' fun a => ?_
        by_cases ha : k = a
        · rw [← ha, Memory.read_of_forall_lt hlt, Memory.read_of_forall_lt hlt']
        · simpa [Memory.read, ha] using hread a
      rw [hhead, htail]

/-! ## The effective address -/

/-- Settles O23: the signed values of words add up as the words do, modulo 2^32. -/
theorem effectiveAddressIsTheWrappingSum : Obligations.EffectiveAddressIsTheWrappingSum := by
  refine fun s rs1 imm => ⟨?_, wrap32_toNat _⟩
  rw [effectiveAddress, wrap32, BitVec.ofInt_add, BitVec.ofInt_toInt, BitVec.ofInt_toInt]

/-! ## Loads and stores in bounds -/

/-- Settles O24: a load in bounds completes, and the value of each width is that of the bytes it reads. -/
theorem loadsInBoundsReadTheirBytes : Obligations.LoadsInBoundsReadTheirBytes := by
  intro s rd rs1 imm
  refine ⟨?_, decodesTo_of_selectLoad rfl, decodesTo_of_selectLoad rfl, decodesTo_of_selectLoad rfl⟩
  rintro ea rfl
  refine ⟨fun hb => .of_load (w := .byte) rfl hb ?_, fun hb => .of_load (w := .half) rfl hb ?_,
    fun hb => .of_load (w := .word) rfl hb (State.memRead_word _ _)⟩
  · rw [State.memRead_byte, sextLow_byte]
  · rw [State.memRead_half, sextLow_half]

/-- Settles O25: a store in bounds completes with the low bytes of its width. -/
theorem storesInBoundsWriteTheLowBytes : Obligations.StoresInBoundsWriteTheLowBytes := by
  intro s rs1 rs2 imm
  refine ⟨?_, decodesTo_of_selectStore rfl, decodesTo_of_selectStore rfl, decodesTo_of_selectStore rfl⟩
  rintro ea rfl
  exact ⟨.of_store (w := .byte) rfl, .of_store (w := .half) rfl, .of_store (w := .word) rfl⟩

/-! ## Accesses out of bounds -/

theorem State.load_of_outOfBounds {s : State} {ea : Word} {w : AccessWidth}
    (hout : s.cfg.memorySpace < uint ea + w.bytes) (rd : RegIdx) (extend : Word → Word) :
    s.load rd ea w extend = .next (s.haltWith (.memoryFault ea w .load)) := by
  rcases s.load_cases rd ea w extend with ⟨hb, _⟩ | ⟨_, h⟩
  · omega
  · exact h

theorem State.store_of_outOfBounds {s : State} {ea : Word} {w : AccessWidth}
    (hout : s.cfg.memorySpace < uint ea + w.bytes) (v : Word) :
    s.store ea w v = .next (s.haltWith (.memoryFault ea w .store)) := by
  rcases s.store_cases ea w v with ⟨hb, _⟩ | ⟨_, h⟩
  · omega
  · exact h

/-- Settles O26: each of the six accesses takes the faulting branch of its load or store. -/
theorem outOfBoundsAccessesHalt : Obligations.OutOfBoundsAccessesHalt := by
  intro i s ea w k haccess hout
  cases i with
  | lb | lh | lw =>
    cases haccess
    exact State.load_of_outOfBounds hout _ _
  | sb | sh | sw =>
    cases haccess
    exact State.store_of_outOfBounds hout _
  | _ => cases haccess

/-! ## A load after a store -/

/-- Memory holds the low bytes of `v` at `ea`. -/
def HoldsBytes (u : State) (ea : Word) (w : AccessWidth) (v : Word) : Prop :=
  ∀ k < w.bytes, u.mem.read (uint ea + k) = v.extractLsb' (8 * k) 8

/-- Memory that agrees with the memory after a completed store holds the stored bytes. -/
theorem holdsBytes_of_completesStoring {i : Instr} {s t u : State} {ea v : Word} {w : AccessWidth}
    (hstore : CompletesStoring i s ea w.bytes v) (hexec : exec i s = .next t)
    (hagree : ∀ k, k < w.bytes → u.mem.read (uint ea + k) = t.mem.read (uint ea + k)) : HoldsBytes u ea w v := by
  obtain ⟨t', hexec', hbytes, _⟩ := hstore
  cases hexec.symm.trans hexec'
  exact fun k hk => (hagree k hk).trans (hbytes k hk)

theorem memRead_byte_of_holdsBytes {u : State} {ea v : Word} (h : HoldsBytes u ea .byte v) :
    u.memRead ea .byte = (v.setWidth 8).setWidth 32 := by
  have h0 : u.mem.read (uint ea) = v.extractLsb' 0 8 := h 0 (by decide)
  have hlow : v.setWidth 8 = v.extractLsb' 0 8 := BitVec.setWidth_eq_extractLsb' (by decide)
  rw [State.memRead_byte, h0, hlow]

theorem memRead_half_of_holdsBytes {u : State} {ea v : Word} (h : HoldsBytes u ea .half v) :
    u.memRead ea .half = (v.setWidth 16).setWidth 32 := by
  have h0 : u.mem.read (uint ea) = v.extractLsb' 0 8 := h 0 (by decide)
  have h1 : u.mem.read (uint ea + 1) = v.extractLsb' 8 8 := h 1 (by decide)
  rw [State.memRead_half, h0, h1]
  apply BitVec.eq_of_getLsbD_eq
  intro k hk
  simp only [BitVec.getLsbD_setWidth, BitVec.getLsbD_append, BitVec.getLsbD_extractLsb']
  grind

theorem memRead_word_of_holdsBytes {u : State} {ea v : Word} (h : HoldsBytes u ea .word v) :
    u.memRead ea .word = v := by
  have h0 : u.mem.read (uint ea) = v.extractLsb' 0 8 := h 0 (by decide)
  have h1 : u.mem.read (uint ea + 1) = v.extractLsb' 8 8 := h 1 (by decide)
  have h2 : u.mem.read (uint ea + 2) = v.extractLsb' 16 8 := h 2 (by decide)
  have h3 : u.mem.read (uint ea + 3) = v.extractLsb' 24 8 := h 3 (by decide)
  rw [State.memRead_word, h0, h1, h2, h3]
  exact wordOfBytes_bytesOfWord v

/-- A narrow value read back is extended from its width. -/
theorem sextLow_setWidth {n : Nat} (hn : n ≤ 32) (v : Word) :
    sextLow n ((v.setWidth n).setWidth 32) = (v.setWidth n).signExtend 32 := by
  rw [sextLow, BitVec.setWidth_setWidth_of_le _ hn]
  simp

/-- Settles O27: the bytes of the store are those the load reads, and it extends them from its width. -/
theorem storeThenLoadRoundTrips : Obligations.StoreThenLoadRoundTrips := by
  intro s t u rs1 rs2 imm rd rs1' imm' ea hea hea' hcfg
  subst hea'
  obtain ⟨hstores, _⟩ := storesInBoundsWriteTheLowBytes s rs1 rs2 imm
  obtain ⟨hsb, hsh, hsw⟩ := hstores _ hea
  refine ⟨fun hb hexec hagree => .of_load (w := .byte) rfl (hcfg ▸ hb) ?_,
    fun hb hexec hagree => .of_load (w := .half) rfl (hcfg ▸ hb) ?_,
    fun hb hexec hagree => .of_load (w := .word) rfl (hcfg ▸ hb) ?_⟩
  · rw [memRead_byte_of_holdsBytes (holdsBytes_of_completesStoring (hsb hb) hexec hagree)]
    exact sextLow_setWidth (by decide) _
  · rw [memRead_half_of_holdsBytes (holdsBytes_of_completesStoring (hsh hb) hexec hagree)]
    exact sextLow_setWidth (by decide) _
  · exact memRead_word_of_holdsBytes (holdsBytes_of_completesStoring (hsw hb) hexec hagree)

end Sys2Proof.Machine

/-! PROOF. The statements about the step and about what every step keeps (10_state.md, 20_memory.md section 4,
60_exceptions.md). They follow from one inversion: a step halts on its fetch or on its word, or it runs the decoded
instruction, which has one of the shapes of `ExecShape`. -/

namespace Sys2Proof.Machine

/-! ## What a step is -/

/-- Settles O7: the other two ends of a running core's step contradict the fetch and the decoding. -/
theorem stepRunsTheDecodedInstruction : Obligations.StepRunsTheDecodedInstruction := by
  rintro s i ⟨hrunning, hb, hd⟩
  rcases step_running hrunning with ⟨hout, _⟩ | ⟨_, ⟨e, he⟩, _⟩ | ⟨j, ⟨_, _, hj⟩, hstep⟩
  · omega
  · cases hd.symm.trans he
  · cases hd.symm.trans hj
    exact hstep

/-- Settles O8: the other two ends of a running core's step need the fetch in bounds. -/
theorem fetchOutOfBoundsHalts : Obligations.FetchOutOfBoundsHalts := by
  intro s hrunning hout
  rcases step_running hrunning with ⟨_, hstep⟩ | ⟨hb, _⟩ | ⟨_, ⟨_, hb, _⟩, _⟩
  · exact hstep
  · omega
  · omega

theorem step_of_halted {s : State} {reason : HaltReason} (h : s.status = .halted reason) :
    step s = .fault (.halted reason) := by
  rw [step, h]

theorem step_next_of_running {s : State} (hrunning : s.status = .running) : ∃ t, step s = .next t := by
  rcases step_running hrunning with ⟨_, hstep⟩ | ⟨_, _, hstep⟩ | ⟨i, _, hstep⟩
  · exact ⟨_, hstep⟩
  · exact ⟨_, hstep⟩
  · obtain ⟨t, hexec, _⟩ := exec_shape i s
    exact ⟨t, hstep.trans hexec⟩

/-- Settles O9: every end of a running core's step is a next state, and a halted core's is a fault. -/
theorem exactlyTheRunningStatesStep : Obligations.ExactlyTheRunningStatesStep := fun _ =>
  ⟨⟨fun ⟨_, h⟩ => step_next_running h, step_next_of_running⟩, fun _ => step_of_halted⟩

/-- Everything a step that answers a next state can do. -/
inductive StepShape (s : State) : State → Prop where
  /-- The fetch is out of bounds. -/
  | fetchFaults (hout : s.cfg.memorySpace < uint s.pc + 4) : StepShape s (s.haltWith (.fetchFault s.pc))
  /-- The fetched word is invalid. -/
  | rejects (hb : uint s.pc + 4 ≤ s.cfg.memorySpace) (hrej : ∀ i, decodeWord s.cfg.macOpcode s.wordAtPc ≠ .ok i) :
      StepShape s (s.haltWith (.invalidInstruction s.wordAtPc))
  /-- The fetched instruction runs. -/
  | runs {i : Instr} {t : State} (hi : s.AboutToRun i) (hexec : exec i s = .next t) (hshape : ExecShape i s t) :
      StepShape s t

theorem step_cases {s t : State} (h : step s = .next t) : StepShape s t := by
  rcases step_running (step_next_running h) with ⟨hout, hstep⟩ | ⟨hb, ⟨e, he⟩, hstep⟩ | ⟨i, hi, hstep⟩
  · cases hstep.symm.trans h
    exact .fetchFaults hout
  · cases hstep.symm.trans h
    exact .rejects hb fun i hd => by cases hd.symm.trans he
  · have hexec : exec i s = .next t := hstep.symm.trans h
    exact .runs hi hexec (exec_cases hexec)

/-! ## The invariant -/

/-- Settles O13: reset sets each field, and the image is the memory. -/
theorem resetLeavesTheStatedValues : Obligations.ResetLeavesTheStatedValues :=
  ⟨fun _ _ hcfg hwf hwithin => ⟨⟨hcfg, hwf, hwithin⟩, fun r => Vector.getElem_replicate r.isLt, rfl, fun _ => rfl,
    rfl, rfl⟩, by decide⟩

theorem ExecShape.cfg_eq {i : Instr} {s t : State} (h : ExecShape i s t) : t.cfg = s.cfg := by
  cases h <;> rfl

/-- Only a store changes memory, and one in bounds keeps its form and its bound. -/
theorem ExecShape.keeps_inv {i : Instr} {s t : State} (h : ExecShape i s t) (hinv : s.Inv) : t.Inv := by
  cases h with
  | stores ea w v _ hb =>
    obtain ⟨hcfg, hwf, hwithin⟩ := hinv
    exact ⟨hcfg, Memory.writeBytes_wf _ _ hwf, Memory.writeBytes_within _ hwithin (by rwa [length_lowBytes])⟩
  | _ => exact hinv

/-- Settles O14: a halt writes the status alone, and every instruction keeps the invariant. -/
theorem everyStepKeepsTheInvariant : Obligations.EveryStepKeepsTheInvariant := by
  intro s t hinv h
  cases step_cases h with
  | fetchFaults _ => exact ⟨hinv, rfl⟩
  | rejects _ _ => exact ⟨hinv, rfl⟩
  | runs _ _ hshape => exact ⟨hshape.keeps_inv hinv, hshape.cfg_eq⟩

/-! ## The program counter -/

/-- Adding an even word keeps bit 0. -/
theorem getLsbD_zero_add_of_even (v : Word) {d : Word} (heven : d.getLsbD 0 = false) :
    (v + d).getLsbD 0 = v.getLsbD 0 := by
  rw [BitVec.getLsbD_add (by decide), heven, BitVec.carry_zero]
  simp

theorem immB_getLsbD_zero (offset : BitVec 13) : (immB offset).getLsbD 0 = offset.getLsbD 0 := by
  rw [immB, BitVec.getLsbD_signExtend]
  rfl

theorem immJ_getLsbD_zero (offset : BitVec 21) : (immJ offset).getLsbD 0 = offset.getLsbD 0 := by
  rw [immJ, BitVec.getLsbD_signExtend]
  rfl

/-- An instruction that has an encoding keeps bit 0 of pc. -/
theorem ExecShape.keeps_bit_zero_of_pc {i : Instr} {s t : State} (h : ExecShape i s t) (hwf : i.wf = true) :
    t.pc.getLsbD 0 = s.pc.getLsbD 0 := by
  have hadvance : (s.pc + 4).getLsbD 0 = s.pc.getLsbD 0 := getLsbD_zero_add_of_even s.pc rfl
  cases h with
  | jumps rd offset hi =>
    subst hi
    have heven : offset.getLsbD 0 = false := by simpa [Instr.wf] using hwf
    exact getLsbD_zero_add_of_even s.pc ((immJ_getLsbD_zero offset).trans heven)
  | branches rs1 rs2 offset hi =>
    have heven : offset.getLsbD 0 = false := by rcases hi with rfl | rfl <;> simpa [Instr.wf] using hwf
    exact getLsbD_zero_add_of_even s.pc ((immB_getLsbD_zero offset).trans heven)
  | writes | falls | stores | prints => exact hadvance
  | faults | exits | illegal => rfl

/-- Settles O15: what a word decodes to is well formed, so its offset is even. -/
theorem everyStepKeepsBitZeroOfPc : Obligations.EveryStepKeepsBitZeroOfPc := by
  intro s t h
  cases step_cases h with
  | fetchFaults _ => rfl
  | rejects _ _ => rfl
  | runs hi _ hshape =>
    obtain ⟨_, _, hd⟩ := hi
    exact hshape.keeps_bit_zero_of_pc (encodesTo_of_decodeWord hd).1

/-- Settles O16, by the shapes of an instruction. -/
theorem pcAdvancesByFourUnlessOverridden : Obligations.PcAdvancesByFourUnlessOverridden := by
  intro i s t hrunning h
  cases exec_cases h with
  | jumps rd offset hi => exact ⟨fun hn => absurd hrunning hn, fun _ _ => .inr ⟨rd, offset, hi, rfl⟩⟩
  | branches rs1 rs2 offset hi => exact ⟨fun hn => absurd hrunning hn, fun _ _ => .inl ⟨rs1, rs2, offset, hi, rfl⟩⟩
  | writes | falls | stores | prints => exact ⟨fun hn => absurd hrunning hn, fun _ hpc => absurd rfl hpc⟩
  | faults | exits | illegal => exact ⟨fun _ => rfl, fun hr => nomatch hr⟩

/-! ## Frames -/

/-- Settles O17: only the shapes with a destination write a register, and they write it alone. -/
theorem onlyTheDestinationRegisterChanges : Obligations.OnlyTheDestinationRegisterChanges := by
  intro i s t h r hr
  cases exec_cases h with
  | writes rd v hrd => exact s.getReg_setReg_ne v fun heq => hr (heq ▸ hrd)
  | jumps rd offset hi =>
    subst hi
    exact s.getReg_setReg_ne _ fun heq => hr (heq ▸ rfl)
  | _ => rfl

/-- Settles O18: only a store in bounds writes memory, and only the bytes of its access. -/
theorem onlyStoresChangeMemory : Obligations.OnlyStoresChangeMemory := by
  intro s t a h hne
  cases step_cases h with
  | fetchFaults _ => exact absurd rfl hne
  | rejects _ _ => exact absurd rfl hne
  | runs hi _ hshape =>
    cases hshape with
    | stores ea w v haccess hb =>
      rw [State.advance_mem, State.memWrite_read] at hne
      obtain ⟨hlow, hhigh⟩ : uint ea ≤ a ∧ a < uint ea + w.bytes := by
        by_contra hout
        exact hne (if_neg hout)
      exact ⟨_, ea, w, hi, haccess, hlow, hhigh, by omega⟩
    | _ => exact absurd rfl hne

/-- Settles O19: only the two shapes of the system call that print change the output, by appending. -/
theorem onlyTheSystemCallPrints : Obligations.OnlyTheSystemCallPrints := by
  intro i s t h
  cases exec_cases h with
  | prints b items hi _ => exact ⟨⟨items, rfl⟩, fun _ => ⟨b, hi⟩⟩
  | exits b hi _ => exact ⟨⟨[.exitBanner], rfl⟩, fun _ => ⟨b, hi⟩⟩
  | _ => exact ⟨⟨[], (List.append_nil _).symm⟩, fun hne => absurd rfl hne⟩

/-! ## Halts -/

/-- The condition of each halt reason, with the value it records (60_exceptions.md rules R210 and R219). -/
def HaltCause (s : State) : HaltReason → Prop
  | .fetchFault a => s.cfg.memorySpace < uint s.pc + 4 ∧ a = s.pc
  | .invalidInstruction w =>
    uint s.pc + 4 ≤ s.cfg.memorySpace ∧ w = s.wordAtPc ∧ ∀ i, decodeWord s.cfg.macOpcode w ≠ .ok i
  | .memoryFault a w k =>
    ∃ i, s.AboutToRun i ∧ dataAccess s i = some (a, w, k) ∧ s.cfg.memorySpace < uint a + w.bytes
  | .illegalServiceCall c =>
    ∃ b, s.AboutToRun (.ecall b) ∧ c = s.getReg 10 ∧ c ≠ 1 ∧ c ≠ 4 ∧ c ≠ 10 ∧ c ≠ 11
  | .exit => ∃ b, s.AboutToRun (.ecall b) ∧ s.getReg 10 = 10

/-- The state a halt leaves: only the exit service prints. -/
def State.haltedFor (s : State) : HaltReason → State
  | .exit => (s.emit [.exitBanner]).haltWith .exit
  | reason => s.haltWith reason

/-- Under the condition of a reason the step halts for it. -/
theorem HaltCause.step_eq {s : State} {reason : HaltReason} (hrunning : s.status = .running)
    (h : HaltCause s reason) : step s = .next (s.haltedFor reason) := by
  cases reason with
  | fetchFault a =>
    obtain ⟨hout, rfl⟩ := h
    exact fetchOutOfBoundsHalts s hrunning hout
  | invalidInstruction w =>
    obtain ⟨hb, rfl, hrej⟩ := h
    exact step_of_rejected hrunning hb hrej
  | memoryFault a w k =>
    obtain ⟨i, hi, haccess, hout⟩ := h
    exact (stepRunsTheDecodedInstruction s i hi).trans (outOfBoundsAccessesHalt i s a w k haccess hout)
  | illegalServiceCall c =>
    obtain ⟨b, hi, rfl, h1, h4, h10, h11⟩ := h
    exact (stepRunsTheDecodedInstruction s _ hi).trans (exec_ecall_illegal b h1 h4 h10 h11)
  | exit =>
    obtain ⟨b, hi, hcode⟩ := h
    exact (stepRunsTheDecodedInstruction s _ hi).trans (exec_ecall_exit b hcode)

/-- A step that halts does so under the condition of its reason. -/
theorem haltCause_of_step {s t : State} {reason : HaltReason} (h : step s = .next t)
    (ht : t.status = .halted reason) : HaltCause s reason := by
  have hrunning := step_next_running h
  cases step_cases h with
  | fetchFaults hout =>
    cases ht
    exact ⟨hout, rfl⟩
  | rejects hb hrej =>
    cases ht
    exact ⟨hb, rfl, hrej⟩
  | @runs i _ hi _ hshape =>
    cases hshape with
    | faults ea w k haccess hout =>
      cases ht
      exact ⟨i, hi, haccess, hout⟩
    | exits b hecall hcode =>
      cases ht
      exact ⟨b, hecall ▸ hi, hcode⟩
    | illegal b hecall hcode =>
      cases ht
      exact ⟨b, hecall ▸ hi, rfl, hcode⟩
    | writes | jumps | branches | falls | stores | prints => cases hrunning.symm.trans ht

theorem step_halted_iff {s t : State} {reason : HaltReason} (h : step s = .next t) :
    t.status = .halted reason ↔ HaltCause s reason := by
  refine ⟨haltCause_of_step h, fun hcause => ?_⟩
  cases (hcause.step_eq (step_next_running h)).symm.trans h
  cases reason <;> rfl

/-- Settles O10: the step halts for its reason, and that state differs from the old one as stated. -/
theorem haltsArePrecise : Obligations.HaltsArePrecise := by
  intro s t reason h ht
  cases ((haltCause_of_step h ht).step_eq (step_next_running h)).symm.trans h
  cases reason <;> exact ⟨rfl, rfl, rfl, rfl, rfl⟩

/-- Settles O11: the clauses are the conditions of the five reasons. -/
theorem eachHaltReasonHasItsCause : Obligations.EachHaltReasonHasItsCause := by
  intro s t hmac _ h
  refine ⟨fun a => step_halted_iff h, fun w => ?_, fun a w k => step_halted_iff h, fun c => step_halted_iff h,
    step_halted_iff h⟩
  rw [step_halted_iff h, HaltCause, rejects_iff_invalidWord hmac]

/-! ## A stored word is fetched -/

/-- The word at pc is the word whose bytes memory holds there. -/
theorem wordAtPc_of_holdsBytes {t : State} {v : Word} (h : HoldsBytes t t.pc .word v) : t.wordAtPc = v :=
  (State.memRead_word t t.pc).symm.trans (memRead_word_of_holdsBytes h)

/-- Settles O12: the store completes, and the next fetch reads the bytes it stored. -/
theorem storedWordIsSeenByTheNextFetch : Obligations.StoredWordIsSeenByTheNextFetch := by
  intro s t rs1 rs2 imm i hsw hea hb hd h
  have hexec : exec (.sw rs1 rs2 imm) s = .next t := (stepRunsTheDecodedInstruction s _ hsw).symm.trans h
  obtain ⟨hstores, _⟩ := storesInBoundsWriteTheLowBytes s rs1 rs2 imm
  obtain ⟨_, _, hstore⟩ := hstores _ hea.symm
  obtain ⟨t', hexec', hbytes, _, _, hpc, _, hstatus, hcfg⟩ := hstore hb
  cases hexec.symm.trans hexec'
  obtain ⟨hrunning, _⟩ := hsw
  refine stepRunsTheDecodedInstruction t i ⟨hstatus.trans hrunning, by rwa [hpc, hcfg], ?_⟩
  rw [wordAtPc_of_holdsBytes (hpc ▸ hbytes), hcfg, hd]

/-! ## Output is not read back -/

/-- `i` appends the same items and does the same whatever was printed before. -/
def IgnoresOutput (i : Instr) (s : State) : Prop :=
  ∃ t items, exec i s = .next t ∧ t.out = s.out ++ items ∧
    ∀ before, exec i { s with out := before } = .next { t with out := before ++ items }

section

variable {i : Instr} {s t : State} {rd : RegIdx} {w : AccessWidth}

/-- An instruction that prints nothing ignores the output if it does the same with every output. -/
theorem IgnoresOutput.of_silent (hout : t.out = s.out)
    (h : ∀ before, exec i { s with out := before } = .next { t with out := before }) : IgnoresOutput i s :=
  ⟨t, [], (h s.out).trans (by rw [← hout]), by rw [hout, List.append_nil],
    fun before => by rw [List.append_nil]; exact h before⟩

theorem IgnoresOutput.of_writeBack {value : State → Word} (h : ∀ u, exec i u = u.writeBack rd (value u))
    (hvalue : ∀ before, value { s with out := before } = value s) : IgnoresOutput i s :=
  .of_silent (t := (s.setReg rd (value s)).advance) rfl fun before => by rw [h, hvalue]; rfl

theorem IgnoresOutput.of_load {address : State → Word} {extend : Word → Word}
    (h : ∀ u, exec i u = u.load rd (address u) w extend)
    (haddress : ∀ before, address { s with out := before } = address s) : IgnoresOutput i s := by
  by_cases hb : s.inbounds (address s) w
  · exact .of_silent (t := (s.setReg rd (extend (s.memRead (address s) w))).advance) rfl fun before => by
      rw [h, haddress]; exact if_pos hb
  · exact .of_silent (t := s.haltWith (.memoryFault (address s) w .load)) rfl fun before => by
      rw [h, haddress]; exact if_neg hb

theorem IgnoresOutput.of_store {address value : State → Word}
    (h : ∀ u, exec i u = u.store (address u) w (value u))
    (haddress : ∀ before, address { s with out := before } = address s)
    (hvalue : ∀ before, value { s with out := before } = value s) : IgnoresOutput i s := by
  by_cases hb : s.inbounds (address s) w
  · exact .of_silent (t := (s.memWrite (address s) w (value s)).advance) rfl fun before => by
      rw [h, haddress, hvalue]; exact if_pos hb
  · exact .of_silent (t := s.haltWith (.memoryFault (address s) w .store)) rfl fun before => by
      rw [h, haddress]; exact if_neg hb

end

theorem ignoresOutput_ecall (b : BitVec 25) (s : State) : IgnoresOutput (.ecall b) s := by
  rcases serviceCode_cases (s.getReg 10) with h | h | h | h | ⟨h1, h4, h10, h11⟩
  · exact ⟨_, _, exec_ecall_printInteger b h, rfl, fun _ => exec_ecall_printInteger b h⟩
  · exact ⟨_, _, exec_ecall_printString b h, rfl, fun _ => exec_ecall_printString b h⟩
  · exact ⟨_, _, exec_ecall_exit b h, rfl, fun _ => exec_ecall_exit b h⟩
  · exact ⟨_, _, exec_ecall_printCharacter b h, rfl, fun _ => exec_ecall_printCharacter b h⟩
  · exact .of_silent (t := s.haltWith (.illegalServiceCall (s.getReg 10))) rfl fun _ =>
      exec_ecall_illegal b h1 h4 h10 h11

theorem ignoresOutput (i : Instr) (s : State) : IgnoresOutput i s := by
  cases i with
  | lb | lh | lw => exact .of_load (fun _ => rfl) fun _ => rfl
  | sb | sh | sw => exact .of_store (fun _ => rfl) (fun _ => rfl) fun _ => rfl
  | beq rs1 rs2 offset =>
    by_cases h : uint (s.getReg rs1) % 2 ^ 16 = uint (s.getReg rs2) % 2 ^ 16
    · exact .of_silent (t := s.setPc (s.pc + immB offset)) rfl fun _ =>
        (exec_beq ..).trans (congrArg _ (if_pos h))
    · exact .of_silent (t := s.advance) rfl fun _ => (exec_beq ..).trans (congrArg _ (if_neg h))
  | bne rs1 rs2 offset =>
    by_cases h : uint (s.getReg rs1) % 2 ^ 16 = uint (s.getReg rs2) % 2 ^ 16
    · exact .of_silent (t := s.advance) rfl fun _ => (exec_bne ..).trans (congrArg _ (if_pos h))
    · exact .of_silent (t := s.setPc (s.pc + immB offset)) rfl fun _ =>
        (exec_bne ..).trans (congrArg _ (if_neg h))
  | jal rd offset => exact .of_silent (t := (s.setReg rd (s.pc + 4)).setPc (s.pc + immJ offset)) rfl fun _ => rfl
  | ecall b => exact ignoresOutput_ecall b s
  | _ => exact .of_writeBack (fun _ => rfl) fun _ => rfl

/-- Settles O20: the fetch does not read the output, and no instruction does. -/
theorem outputIsNeverReadBack : Obligations.OutputIsNeverReadBack := by
  intro s t h
  have hrunning := step_next_running h
  cases step_cases h with
  | fetchFaults hout =>
    exact ⟨[], (List.append_nil _).symm, fun before => by
      rw [List.append_nil]; exact fetchOutOfBoundsHalts { s with out := before } hrunning hout⟩
  | rejects hb hrej =>
    exact ⟨[], (List.append_nil _).symm, fun before => by
      rw [List.append_nil]; exact step_of_rejected (s := { s with out := before }) hrunning hb hrej⟩
  | @runs i _ hi hexec _ =>
    obtain ⟨t', items, hexec', hout, hbefore⟩ := ignoresOutput i s
    cases hexec.symm.trans hexec'
    exact ⟨items, hout, fun before =>
      (stepRunsTheDecodedInstruction { s with out := before } i hi).trans (hbefore before)⟩

end Sys2Proof.Machine

/-! PROOF. The remaining statements about the arithmetic/logical unit (40_alu.md): shifts, comparison, division, and the
alternate opcode. -/

namespace Sys2Proof.Machine

/-! ## Shifts -/

/-- Settles O30, by the bits of the three shifts. -/
theorem registerShiftsMoveBitsByTheWholeAmount : Obligations.RegisterShiftsMoveBitsByTheWholeAmount :=
  fun _ rd rs1 rs2 =>
    ⟨.of_writeBack rfl (shl_bit _ _), .of_writeBack rfl (shr_bit _ _), .of_writeBack rfl (sar_bit _ _),
      decodesTo_standardInstr .sll rfl rd rs1 rs2, decodesTo_standardInstr .srl rfl rd rs1 rs2,
      decodesTo_standardInstr .sra rfl rd rs1 rs2⟩

/-- The amount of an immediate shift is the signed immediate modulo 2^32. -/
theorem immediateShiftAmount_eq (imm : BitVec 12) : (immediateShiftAmount imm : Int) = imm.toInt % 2 ^ 32 := by
  have hlt : (uint (immI imm) : Int) < 2 ^ 32 := by exact_mod_cast (immI imm).isLt
  rw [immediateShiftAmount, ← immI_toInt, ← uint_emod_eq_sint_emod, Int.emod_eq_of_lt (Int.natCast_nonneg _) hlt]

/-- Settles O39, by the bits of the two shifts, the amount being that of the immediate. -/
theorem immediateShiftsMoveBitsByTheWholeAmount : Obligations.ImmediateShiftsMoveBitsByTheWholeAmount := by
  intro s rd rs1 imm amount hamount
  obtain rfl : amount = immediateShiftAmount imm := by
    exact_mod_cast hamount.trans (immediateShiftAmount_eq imm).symm
  exact ⟨.of_writeBack rfl (shl_bit _ _), .of_writeBack rfl (shr_bit _ _), decodesTo_of_selectImm rfl,
    decodesTo_of_selectImm rfl⟩

/-! ## Comparison and bitwise and -/

/-- Settles O32: both rows are selected by funct3 alone. -/
theorem sltAndAndIgnoreFunct7 : Obligations.SltAndAndIgnoreFunct7 := fun _ rd rs1 rs2 _ =>
  ⟨.of_writeBack rfl rfl, .of_writeBack rfl fun _ _ => BitVec.getLsbD_and,
    decodesTo_standardInstr .slt rfl rd rs1 rs2, decodesTo_standardInstr .and rfl rd rs1 rs2⟩

/-! ## Division -/

/-- The remainder of a division that rounds toward zero is less than the divisor, and zero or of the dividend's sign. -/
theorem tmod_bounds {a b : Int} (hb : b ≠ 0) :
    (a.tmod b).natAbs < b.natAbs ∧ (a.tmod b = 0 ∨ (a.tmod b).sign = a.sign) := by
  refine ⟨?_, ?_⟩
  · rw [Int.natAbs_tmod]
    exact Nat.mod_lt _ (Int.natAbs_pos.2 hb)
  · by_cases hdvd : b ∣ a
    · exact .inl (Int.tmod_eq_zero_of_dvd hdvd)
    · exact .inr ((Int.sign_tmod a b).trans (if_neg hdvd))

/-- Settles O33: the two corner cases are the definition's, and elsewhere quotient and remainder are those of the
division that rounds toward zero. -/
theorem divAndRemDivideTowardZero : Obligations.DivAndRemDivideTowardZero := by
  rintro s rd rs1 rs2 a b rfl rfl
  obtain ⟨halo, hahi⟩ := sint_bounds (s.getReg rs1)
  obtain ⟨hblo, hbhi⟩ := sint_bounds (s.getReg rs2)
  refine ⟨.of_writeBack rfl ⟨fun h0 => ?_, fun ho => ?_, fun h0 ho => ?_⟩,
    .of_writeBack rfl ⟨fun h0 => ?_, fun ho => ?_, fun h0 ho => ?_⟩,
    decodesTo_standardInstr .div rfl rd rs1 rs2, decodesTo_standardInstr .rem rfl rd rs1 rs2⟩
  · rw [divs, if_pos h0]
  · rw [divs, if_neg (by omega), if_pos ho]
  · rw [divs_toInt halo hahi h0 ho]
    exact ⟨_, (Int.mul_tdiv_add_tmod ..).symm, tmod_bounds h0⟩
  · rw [rems, if_pos h0, sint_wrap32 halo hahi]
  · rw [rems, if_neg (by omega), if_pos ho]
  · rw [rems_toInt hblo hbhi h0 ho]
    exact ⟨_, (Int.mul_tdiv_add_tmod ..).symm, tmod_bounds h0⟩

/-! ## The alternate opcode -/

/-- Settles O34, by the value of the wrapped sum. -/
theorem macAccumulates : Obligations.MacAccumulates := fun _ _ _ _ =>
  ⟨.of_writeBack rfl (mulAccumulate_toNat _ _ _), fun _ hmac => decodeWord_alternateInstr (op := .addOrMac) hmac rfl⟩

/-- Every row but MAC does the same under both opcodes. -/
theorem exec_alternateInstr {op : RegOp} (hop : op ≠ .addOrMac) (rd rs1 rs2 : RegIdx) (f7 : BitVec 7) (s : State) :
    exec (alternateInstr op rd rs1 rs2 f7) s = exec (standardInstr op rd rs1 rs2 f7) s := by
  cases op with
  | addOrMac => exact absurd rfl hop
  | _ => rfl

/-- Settles O35: each listed row is one of the register-register table other than MAC. -/
theorem alternateFormsActAsTheirNamesakes : Obligations.AlternateFormsActAsTheirNamesakes := by
  intro s mac rd rs1 rs2 f7 hmac alt std w hlisted
  have hrow (op : RegOp) (hop : op ≠ .addOrMac) (f3 : BitVec 3) (funct7 : BitVec 7)
      (hselect : selectRegOp f3 funct7 = some op) :
      decodeWord mac (wordR funct7 rs2 rs1 f3 rd mac) = .ok (alternateInstr op rd rs1 rs2 funct7) ∧
        ∃ t, exec (alternateInstr op rd rs1 rs2 funct7) s = .next t ∧
          exec (standardInstr op rd rs1 rs2 funct7) s = .next t := by
    obtain ⟨t, hexec, _⟩ := exec_shape (alternateInstr op rd rs1 rs2 funct7) s
    exact ⟨decodeWord_alternateInstr hmac hselect, t, hexec, (exec_alternateInstr hop ..).symm.trans hexec⟩
  simp only [List.mem_cons, Prod.mk.injEq, List.not_mem_nil, or_false] at hlisted
  rcases hlisted with ⟨rfl, rfl, rfl⟩ | ⟨rfl, rfl, rfl⟩ | ⟨rfl, rfl, rfl⟩ | ⟨rfl, rfl, rfl⟩ | ⟨rfl, rfl, rfl⟩ |
    ⟨rfl, rfl, rfl⟩ | ⟨rfl, rfl, rfl⟩ | ⟨rfl, rfl, rfl⟩ | ⟨rfl, rfl, rfl⟩ | ⟨rfl, rfl, rfl⟩ | ⟨rfl, rfl, rfl⟩ |
    ⟨rfl, rfl, rfl⟩
  · exact hrow .mul nofun _ _ rfl
  · exact hrow .sub nofun _ _ rfl
  · exact hrow .sll nofun _ _ rfl
  · exact hrow .mulh nofun _ _ rfl
  · exact hrow .slt nofun _ _ rfl
  · exact hrow .xor nofun _ _ rfl
  · exact hrow .div nofun _ _ rfl
  · exact hrow .srl nofun _ _ rfl
  · exact hrow .sra nofun _ _ rfl
  · exact hrow .or nofun _ _ rfl
  · exact hrow .rem nofun _ _ rfl
  · exact hrow .and nofun _ _ rfl

end Sys2Proof.Machine

/-! PROOF. The statements about JAL, the range of the offsets, and register 0 (41_control.md and 10_state.md). -/

namespace Sys2Proof.Machine

/-- JAL jumps by the signed offset, modulo 2^32. -/
theorem exec_jal (rd : RegIdx) (offset : BitVec 21) (s : State) :
    ∃ t, exec (.jal rd offset) s = .next t ∧ t.getReg rd = s.pc + 4 ∧
      (uint t.pc : Int) = (uint s.pc + offset.toInt) % 2 ^ 32 ∧ KeepsAllBut rd s t := by
  refine ⟨_, rfl, State.getReg_setReg_self _ _ _, ?_, fun r hr => State.getReg_setReg_ne _ _ hr, fun _ => rfl, rfl,
    rfl, rfl⟩
  rw [State.setPc_pc, add_toNat_eq, immJ_toInt]

/-- Settles O42, by the target and the frame of JAL. -/
theorem jalLinksAndJumps : Obligations.JalLinksAndJumps := fun s rd offset =>
  ⟨exec_jal rd offset s, fun heven _ hmac => decodeWord_wordJ hmac offset rd heven⟩

/-- An even integer in the signed range of a width is the value of a word of that width whose bit 0 is zero. -/
theorem exists_even_toInt_eq {n : Nat} {k : Int} (heven : k % 2 = 0) (hlo : -2 ^ n ≤ k) (hhi : k < 2 ^ n) :
    ∃ offset : BitVec (n + 1), offset.getLsbD 0 = false ∧ offset.toInt = k := by
  refine ⟨BitVec.ofInt (n + 1) k, ?_, ?_⟩
  · have hdvd : (2 : Int) ∣ (2 ^ (n + 1) : Nat) := by exact_mod_cast Dvd.intro_left (2 ^ n) (pow_succ 2 n).symm
    have hmod : k % (2 ^ (n + 1) : Nat) % 2 = 0 := (Int.emod_emod_of_dvd k hdvd).trans heven
    rw [BitVec.getLsbD, Nat.testBit_zero, BitVec.toNat_ofInt, decide_eq_false_iff_not]
    omega
  · exact BitVec.toInt_ofInt_eq_self n.succ_pos hlo hhi

/-- Settles O43: the offset is the word of the distance. -/
theorem offsetsSpanTheirWholeRange : Obligations.OffsetsSpanTheirWholeRange := by
  refine ⟨fun k rs1 rs2 heven hlo hhi => ?_, fun k rd heven hlo hhi => ?_⟩
  · obtain ⟨offset, hbit, rfl⟩ := exists_even_toInt_eq (n := 12) heven (by omega) (by omega)
    refine ⟨offset, decodesTo_of_selectBranch hbit rfl, fun s hagree => ?_⟩
    obtain ⟨htaken, _⟩ := branchesCompareTheLowSixteenBits s rs1 rs2 offset
    obtain ⟨hbeq, _⟩ := htaken hagree
    exact hbeq
  · obtain ⟨offset, hbit, rfl⟩ := exists_even_toInt_eq (n := 20) heven (by omega) (by omega)
    refine ⟨offset, fun _ hmac => decodeWord_wordJ hmac offset rd hbit, fun s => ?_⟩
    obtain ⟨t, hexec, _, hpc, _⟩ := exec_jal rd offset s
    exact ⟨t, hexec, hpc⟩

theorem addWords_eq_add (a b : Word) : addWords a b = a + b := by
  rw [addWords, ← Nat.cast_add, wrap32_natCast, BitVec.ofNat_add, BitVec.ofNat_toNat, BitVec.ofNat_toNat,
    BitVec.setWidth_eq, BitVec.setWidth_eq]

/-- Settles O21: the link, the sum with zero and the upper immediate are written to and read from x0 as from any other
register. -/
theorem registerZeroIsOrdinary : Obligations.RegisterZeroIsOrdinary := by
  intro s
  refine ⟨fun offset => ?_, ⟨_, rfl, fun r => ?_⟩, fun imm => ⟨_, _, rfl, rfl, ?_⟩⟩
  · obtain ⟨t, hexec, hlink, _⟩ := exec_jal 0 offset s
    exact ⟨t, hexec, hlink⟩
  · have hsum : addWords (s.getReg 0) (immI 0) = s.getReg 0 := (addWords_eq_add _ _).trans (BitVec.add_zero _)
    rw [State.getReg_advance, State.getReg_setReg, hsum]
    exact ite_eq_right_iff.2 fun hr => hr ▸ rfl
  · rw [State.getReg_advance, State.getReg_setReg_self, addWords_eq_add, State.getReg_advance, State.getReg_setReg_self]

end Sys2Proof.Machine
